-- ==== Sys2Proof/Word.lean ====
section
/-! DEFINITION. The word and byte types (00_scope.md R3, R6): a word is 16 bits, read as an unsigned natural. -/

namespace Sys2Proof

/-- The storage unit of memory, registers, stack entries and input codes: 16 bits (R3 `WORD_BITS`). -/
abbrev Word := BitVec 16

/-- One byte of a program image (20_memory.md R32). -/
abbrev Byte := BitVec 8

end Sys2Proof
end

