-- ==== Sys2Proof/Config.lean ====
section
/-! DEFINITION. The two OPEN parameters of the CORE, fixed for a run: `STACK_MAX` (00_scope.md R4, decision D7) and
`OPCODE_OF` (00_scope.md R5, decision D1). The fixed parameters of R3 (32768 words, 8 registers, 32768, 32776)
stand as numerals in the rules' own places, as the spec's pseudocode writes them. -/

namespace Sys2Proof

/-- `STACK_MAX`: the call stack's capacity, a positive natural or `infinity` (R4). -/
inductive StackMax where
  | infinity
  | atMost (entries : Nat)
  deriving DecidableEq, Repr

/-- R4 admits `infinity` and the positive naturals: every capacity but 0. -/
abbrev StackMax.Valid (m : StackMax) : Prop := m ≠ .atMost 0

/-- A stack of `depth` entries keeps within the capacity (10_state.md, table: "depth `<= STACK_MAX`"). -/
def StackMax.admits : StackMax → Nat → Bool
  | .infinity, _ => true
  | .atMost n, depth => decide (depth ≤ n)

/-- `OPCODE_OF`: one opcode word for each of the 22 mnemonics, in the order of the table of 30_encoding.md R50. -/
structure OpcodeMap where
  numbers : Vector Word 22
  deriving DecidableEq, Repr

/-- R5: the map is injective. -/
abbrev OpcodeMap.Injective (m : OpcodeMap) : Prop := m.numbers.toList.Nodup

/-- The parameters of one CORE (10_state.md R31). -/
structure Params where
  stackMax : StackMax
  opcodes : OpcodeMap
  deriving DecidableEq, Repr

/-- Parameters that R4 and R5 admit. R5's "16-bit words" admit an opcode number of 32768 or more too; no opcode word has
that mnemonic then, for the decoder takes every opcode word from 32768 on as unknown (DEDUCED, log 17). -/
abbrev Params.Valid (p : Params) : Prop := p.stackMax.Valid ∧ p.opcodes.Injective

end Sys2Proof
end

