-- ==== Sys2Proof/Syntax.lean ====
section
/-! DEFINITION. The 22 mnemonics and the instructions (30_encoding.md R46 to R50). An instruction keeps its RAW operand
words, exactly as memory holds them (00_scope.md R11 "Raw operand word"): the spec resolves them anew each time the
instruction runs (10_state.md R28), and the fault record of an invalid operand holds the raw word (R26). -/

namespace Sys2Proof

/-- The 22 mnemonics, in the order of the table of R50. `inp` is IN (`in` is a word of Lean). -/
inductive Opcode where
  | halt
  | set
  | push
  | pop
  | eq
  | gt
  | jmp
  | jt
  | jf
  | add
  | mult
  | mod
  | and
  | or
  | not
  | rmem
  | wmem
  | call
  | ret
  | out
  | inp
  | nop
  deriving DecidableEq, Repr

/-- The 0-based row of a mnemonic in the table of R50. -/
def Opcode.row : Opcode → Fin 22
  | .halt => 0
  | .set => 1
  | .push => 2
  | .pop => 3
  | .eq => 4
  | .gt => 5
  | .jmp => 6
  | .jt => 7
  | .jf => 8
  | .add => 9
  | .mult => 10
  | .mod => 11
  | .and => 12
  | .or => 13
  | .not => 14
  | .rmem => 15
  | .wmem => 16
  | .call => 17
  | .ret => 18
  | .out => 19
  | .inp => 20
  | .nop => 21

/-- All mnemonics, in row order. -/
def Opcode.all : List Opcode :=
  [.halt, .set, .push, .pop, .eq, .gt, .jmp, .jt, .jf, .add, .mult,
    .mod, .and, .or, .not, .rmem, .wmem, .call, .ret, .out, .inp, .nop]

/-- The two kinds of operand (R49): `dest` is resolved by `Dest`, `value` by `Val`. -/
inductive OperandKind where
  | dest
  | value
  deriving DecidableEq, Repr

/-- The operands' kinds, in the order a, b, c (R49, table of R50). -/
def Opcode.kinds : Opcode → List OperandKind
  | .halt => []
  | .set => [.dest, .value]
  | .push => [.value]
  | .pop => [.dest]
  | .eq => [.dest, .value, .value]
  | .gt => [.dest, .value, .value]
  | .jmp => [.value]
  | .jt => [.value, .value]
  | .jf => [.value, .value]
  | .add => [.dest, .value, .value]
  | .mult => [.dest, .value, .value]
  | .mod => [.dest, .value, .value]
  | .and => [.dest, .value, .value]
  | .or => [.dest, .value, .value]
  | .not => [.dest, .value]
  | .rmem => [.dest, .value]
  | .wmem => [.value, .value]
  | .call => [.value]
  | .ret => []
  | .out => [.value]
  | .inp => [.dest]
  | .nop => []

/-- The number of operand words (R46 "arity"). -/
def Opcode.arity (o : Opcode) : Nat := o.kinds.length

/-- The length in words, `1 + arity` (R47; SET is 3 long, conflict C1). -/
def Opcode.length (o : Opcode) : Nat := 1 + o.arity

/-- One instruction: its mnemonic and its raw operand words. One constructor per row of spec/opcode_table.json. -/
inductive Instr where
  /-- HALT (R76) -/
  | halt
  /-- SET (R83) -/
  | set (a b : Word)
  /-- PUSH (R84) -/
  | push (a : Word)
  /-- POP (R85) -/
  | pop (a : Word)
  /-- EQ (R88) -/
  | eq (a b c : Word)
  /-- GT (R89) -/
  | gt (a b c : Word)
  /-- JMP (R77) -/
  | jmp (a : Word)
  /-- JT (R78) -/
  | jt (a b : Word)
  /-- JF (R79) -/
  | jf (a b : Word)
  /-- ADD (R90) -/
  | add (a b c : Word)
  /-- MULT (R91) -/
  | mult (a b c : Word)
  /-- MOD (R92) -/
  | mod (a b c : Word)
  /-- AND (R93) -/
  | and (a b c : Word)
  /-- OR (R94) -/
  | or (a b c : Word)
  /-- NOT (R95) -/
  | not (a b : Word)
  /-- RMEM (R86) -/
  | rmem (a b : Word)
  /-- WMEM (R87) -/
  | wmem (a b : Word)
  /-- CALL (R80) -/
  | call (a : Word)
  /-- RET (R81) -/
  | ret
  /-- OUT (R96) -/
  | out (a : Word)
  /-- IN (R97) -/
  | inp (a : Word)
  /-- NOP (R82) -/
  | nop
  deriving DecidableEq, Repr

/-- The mnemonic of an instruction. -/
def Instr.opcode : Instr → Opcode
  | .halt => .halt
  | .set _ _ => .set
  | .push _ => .push
  | .pop _ => .pop
  | .eq _ _ _ => .eq
  | .gt _ _ _ => .gt
  | .jmp _ => .jmp
  | .jt _ _ => .jt
  | .jf _ _ => .jf
  | .add _ _ _ => .add
  | .mult _ _ _ => .mult
  | .mod _ _ _ => .mod
  | .and _ _ _ => .and
  | .or _ _ _ => .or
  | .not _ _ => .not
  | .rmem _ _ => .rmem
  | .wmem _ _ => .wmem
  | .call _ => .call
  | .ret => .ret
  | .out _ => .out
  | .inp _ => .inp
  | .nop => .nop

/-- The raw operand words, in the order a, b, c (R46). -/
def Instr.operands : Instr → List Word
  | .halt => []
  | .set a b => [a, b]
  | .push a => [a]
  | .pop a => [a]
  | .eq a b c => [a, b, c]
  | .gt a b c => [a, b, c]
  | .jmp a => [a]
  | .jt a b => [a, b]
  | .jf a b => [a, b]
  | .add a b c => [a, b, c]
  | .mult a b c => [a, b, c]
  | .mod a b c => [a, b, c]
  | .and a b c => [a, b, c]
  | .or a b c => [a, b, c]
  | .not a b => [a, b]
  | .rmem a b => [a, b]
  | .wmem a b => [a, b]
  | .call a => [a]
  | .ret => []
  | .out a => [a]
  | .inp a => [a]
  | .nop => []

end Sys2Proof
end

