-- ==== Sys2Proof/WellFormed.lean ====
section
/-! DEFINITION. When an instruction's operand words are valid (30_encoding.md R52, R53). An instruction that is not
well formed is still decoded, and running it raises InvalidOperand at the position found here (R66, R105). -/

namespace Sys2Proof

/-- A word of kind V is valid when it is a literal or a register reference: below 32776 (R52). -/
def valueWordValid (w : Word) : Bool := decide (w.toNat < 32776)

/-- A word of kind D is valid when `w mod 32768`, its low 15 bits, is below 8 (R53, decision D4). -/
def destWordValid (w : Word) : Bool := decide (w.toNat % 32768 < 8)

/-- The check of one operand word by its kind (R49). -/
def OperandKind.wordValid : OperandKind → Word → Bool
  | .dest, w => destWordValid w
  | .value, w => valueWordValid w

/-- The first operand word, counting positions from `position`, that its kind finds invalid. -/
def firstInvalidFrom : Nat → List OperandKind → List Word → Option (Nat × Word)
  | position, k :: ks, w :: ws =>
    if k.wordValid w then firstInvalidFrom (position + 1) ks ws else some (position, w)
  | _, _, _ => none

/-- The lowest position (1, 2 or 3) whose operand word is invalid, with that word (R66). -/
def Instr.firstInvalid (i : Instr) : Option (Nat × Word) := firstInvalidFrom 1 i.opcode.kinds i.operands

/-- Every operand word is valid for its kind. -/
abbrev Instr.WellFormed (i : Instr) : Prop := i.firstInvalid = none

end Sys2Proof
end

