-- ==== Sys2Proof/Decode.lean ====
section
/-! DEFINITION. The decoder (30_encoding.md R46 to R51; 40_execution_cycle.md R62, R63), total on any words and rejecting
by name, and after it the encoder, from the same tables. Memory is addressed by word (20_memory.md R33), so the decoder
reads words; an image's byte pairs become words in Machine/Ops.lean. -/

namespace Sys2Proof

/-- The default of `OPCODE_OF`: the 0-based row index (R50, decision D1). -/
def defaultOpcodes : OpcodeMap :=
  ⟨#v[0, 1, 2, 3, 4, 5, 6, 7, 8, 9, 10, 11, 12, 13, 14, 15, 16, 17, 18, 19, 20, 21]⟩

/-- The opcode word of a mnemonic. -/
def OpcodeMap.number (m : OpcodeMap) (o : Opcode) : Word := m.numbers[o.row]

/-- The mnemonic whose opcode number equals `w` on all 16 bits, if there is one (R51, R62). A word of 32768 or more is
unknown whatever the map (D24, R51, 20_memory.md R45; DEDUCED, log 17, for a map with such a number): it is never resolved as an
operand. -/
def OpcodeMap.find (m : OpcodeMap) (w : Word) : Option Opcode :=
  if w.toNat < 32768 then Opcode.all.find? fun o => m.number o == w else none

/-- Why words are no instruction. -/
inductive DecodeError where
  /-- there is no opcode word -/
  | noOpcode
  /-- `w` is the number of no instruction (R55), or is 32768 or more (D24) -/
  | unknownOpcode (w : Word)
  /-- the opcode word `w` is an instruction's, and its operand word `position` (the lowest missing) is not there (R63) -/
  | missingOperand (w : Word) (position : Nat)
  deriving DecidableEq, Repr

/-- The instruction of a mnemonic and its operand words; words beyond the arity are not read. -/
def Opcode.toInstr : Opcode → Word → Word → Word → Instr
  | .halt, _, _, _ => .halt
  | .set, w₁, w₂, _ => .set w₁ w₂
  | .push, w₁, _, _ => .push w₁
  | .pop, w₁, _, _ => .pop w₁
  | .eq, w₁, w₂, w₃ => .eq w₁ w₂ w₃
  | .gt, w₁, w₂, w₃ => .gt w₁ w₂ w₃
  | .jmp, w₁, _, _ => .jmp w₁
  | .jt, w₁, w₂, _ => .jt w₁ w₂
  | .jf, w₁, w₂, _ => .jf w₁ w₂
  | .add, w₁, w₂, w₃ => .add w₁ w₂ w₃
  | .mult, w₁, w₂, w₃ => .mult w₁ w₂ w₃
  | .mod, w₁, w₂, w₃ => .mod w₁ w₂ w₃
  | .and, w₁, w₂, w₃ => .and w₁ w₂ w₃
  | .or, w₁, w₂, w₃ => .or w₁ w₂ w₃
  | .not, w₁, w₂, _ => .not w₁ w₂
  | .rmem, w₁, w₂, _ => .rmem w₁ w₂
  | .wmem, w₁, w₂, _ => .wmem w₁ w₂
  | .call, w₁, _, _ => .call w₁
  | .ret, _, _, _ => .ret
  | .out, w₁, _, _ => .out w₁
  | .inp, w₁, _, _ => .inp w₁
  | .nop, _, _, _ => .nop

/-- Read one instruction from the front of a list of words, and give the words after it. -/
def decode (m : OpcodeMap) : List Word → Except DecodeError (Instr × List Word)
  | [] => .error .noOpcode
  | w :: ws =>
    match m.find w with
    | none => .error (.unknownOpcode w)
    | some o =>
      if ws.length < o.arity then .error (.missingOperand w (ws.length + 1))
      else .ok (o.toInstr (ws.getD 0 0) (ws.getD 1 0) (ws.getD 2 0), ws.drop o.arity)

/-- The words of an instruction: its opcode word, then its operand words in the order a, b, c (R46, R57). -/
def encode (m : OpcodeMap) (i : Instr) : List Word := m.number i.opcode :: i.operands

/-- The operand word of the literal `n` (R57). -/
def literalWord (n : BitVec 15) : Word := BitVec.ofNat 16 n.toNat

/-- The operand word of register `rK` (R57): `32768 + K`. -/
def registerWord (k : Fin 8) : Word := BitVec.ofNat 16 (32768 + k.val)

/-- The pseudo-instruction `MOV a b`, which assembles exactly as `SET a b` (R58, conflict C6). -/
def mov (a b : Word) : Instr := .set a b

/-- The four words that a number holds, bit 0 the least significant bit of the first word, all bits from `nbits` up
taken as 0. Four words is the longest instruction (R48). -/
def tableWords (nbits w : Nat) : List Word :=
  let v := w % 2 ^ nbits
  [BitVec.ofNat 16 v, BitVec.ofNat 16 (v / 2 ^ 16), BitVec.ofNat 16 (v / 2 ^ 32), BitVec.ofNat 16 (v / 2 ^ 48)]

/-- What the decoder reads, under the default map, from a row's bits as spec/opcode_table.json numbers them. -/
def decodeTableWord (nbits w : Nat) : Option Instr :=
  match decode defaultOpcodes (tableWords nbits w) with
  | .ok (i, _) => some i
  | .error _ => none

end Sys2Proof
end

