-- ==== Sys2Proof/Machine/State.lean ====
section
/-! DEFINITION. The architectural state (10_state.md R14 to R31), the reasons for a stop, and the state after reset. -/

namespace Sys2Proof.Machine

/-- The two clean ends (R23, R101). -/
inductive HaltReason where
  /-- the instruction HALT -/
  | halt
  /-- RET on an empty stack -/
  | retEmpty
  deriving DecidableEq, Repr

/-- The six fault kinds of the CORE (60_exceptions.md R99). Taking one is a next state, whose `status` is `faulted`. -/
inductive FaultKind where
  | invalidOperand
  | unknownOpcode
  | emptyStackPop
  | divisionByZero
  | fetchOutOfRange
  | stackOverflow
  deriving DecidableEq, Repr

/-- A fault with the part of its record that belongs to its kind (R26, R104 to R107). Addresses are naturals: `pc + i`
is a sum of naturals (R17). -/
inductive FaultCause where
  /-- the operand position, its address `pc + position` and the raw word (R105) -/
  | invalidOperand (position : Nat) (addr : Nat) (word : Word)
  /-- the word itself stands in the record's `op` (R104) -/
  | unknownOpcode
  | emptyStackPop
  | divisionByZero
  /-- the address, and for an operand fetch its position (R107) -/
  | fetchOutOfRange (position : Option Nat) (addr : Nat)
  | stackOverflow
  deriving DecidableEq, Repr

/-- The fault record (R26). `at_` is the faulting instruction's address, equal to `pc`; `op` is the opcode word if it was
fetched. -/
structure FaultRecord where
  cause : FaultCause
  at_ : Word
  op : Option Word
  deriving DecidableEq, Repr

/-- The engine's control state (R23). -/
inductive Status where
  | ready
  | running
  | awaitingInput
  | halted (reason : HaltReason)
  | faulted (info : FaultRecord)
  deriving DecidableEq, Repr

/-- One character delivered to the sink with the value `skip` had (45_io.md R96). -/
structure OutEvent where
  code : Word
  skip : Bool
  deriving DecidableEq, Repr

/-- Memory as cells of bytes in one canonical form (`Memory.wf`, Machine/Ops.lean): the low byte of word `a` at key
`2a`, the high byte at `2a + 1`, as the image lays them out (20_memory.md R32). -/
abbrev Memory := List Host.Cell

/-- The whole state. -/
structure State where
  /-- the parameters, fixed for a run and not state of the CORE (R31): no operation writes them -/
  params : Params
  /-- `x[0]`..`x[7]` (R14) -/
  regs : Vector Word 8
  /-- the instruction pointer (R16) -/
  pc : Word
  /-- the call stack, TOP FIRST (R18) -/
  stack : List Word
  /-- `mem[0..32767]` (R25) -/
  mem : Memory
  /-- the engine status, with the fault record when it is `faulted` (R23, R26) -/
  status : Status
  /-- the skip-delay flag (R22) -/
  skip : Bool
  /-- the input buffer, oldest code first (R24) -/
  inbuf : List Word
  /-- the output events since reset, oldest first: the observation of output (R29) -/
  out : List OutEvent
  deriving DecidableEq, Repr

/-- Why the MODEL stops. The CORE's own six faults are next states, not these. -/
inductive Fault where
  /-- Raised by RMEM and WMEM when the resolved address is 32768 or more: no such word exists (R33, R34, R35). Only a
  register that holds 32768 or more gives such an address, in a state that no run reaches (R14, R36). Safe. -/
  | addressOutsideMemory (addr : Nat)
  deriving DecidableEq, Repr

/-- Why the model gives no meaning. -/
inductive Refusal where
  /-- Answered by `exec` for an instruction without a meaning; every instruction has one, so nothing raises it. Safe. -/
  | notModelled (mnemonic : String)
  deriving DecidableEq, Repr

/-- What running an instruction answers. -/
abbrev Result := Host.Outcome State Fault Refusal

/-- Right after reset (10_state.md R30), with the default parameters, and with the empty image: memory all zeros.
Machine/Boot.lean resets with an image. -/
def State.reset : State where
  params := ⟨.infinity, defaultOpcodes⟩
  regs := #v[0, 0, 0, 0, 0, 0, 0, 0]
  pc := 0
  stack := []
  mem := []
  status := .ready
  skip := false
  inbuf := []
  out := []

end Sys2Proof.Machine
end

