-- ==== Sys2Proof/Machine/Ops.lean ====
section
/-! DEFINITION. The named operations over memory, registers, `pc`, stack, input, output and status
(the primitives of 00_scope.md R8), and taking a fault, once for all instructions. -/

namespace Sys2Proof.Machine

/-! ### Bytes and words (20_memory.md R32) -/

/-- The word of a little-endian byte pair: `lo + 256 * hi`. -/
def wordOfBytes (lo hi : Byte) : Word := BitVec.ofNat 16 (lo.toNat + 256 * hi.toNat)

/-- The first byte of a word's pair: its low 8 bits. -/
def lowByte (w : Word) : Byte := BitVec.ofNat 8 w.toNat

/-- The second byte of a word's pair. -/
def highByte (w : Word) : Byte := BitVec.ofNat 8 (w.toNat / 256)

/-! ### Memory -/

/-- What a byte that no cell lists reads as: zero, memory's value beyond the image (R32, 10_state.md R30). -/
def Memory.unlisted : Byte := 0

/-- The byte at a key. -/
def Memory.byteAt : Memory → Nat → Byte
  | [], _ => Memory.unlisted
  | (k, b) :: m, a => if a = k then b else Memory.byteAt m a

/-- A byte in front of cells of higher keys: listed only when it is not what an unlisted key reads as. -/
def Memory.consByte (a : Nat) (b : Byte) (m : Memory) : Memory :=
  if b = Memory.unlisted then m else (a, b) :: m

/-- Set the byte at a key, keeping the canonical form. -/
def Memory.setByte : Memory → Nat → Byte → Memory
  | [], a, b => Memory.consByte a b []
  | (k, c) :: m, a, b =>
    if a < k then Memory.consByte a b ((k, c) :: m)
    else if a = k then Memory.consByte a b m
    else (k, c) :: Memory.setByte m a b

/-- Keys at least `low`, strictly rising, within the 65536 bytes of 32768 words, and no listed byte that an unlisted
key reads as. -/
def Memory.wfFrom : Nat → Memory → Bool
  | _, [] => true
  | low, (k, b) :: m =>
    decide (low ≤ k) && decide (k < 65536) && decide (b ≠ Memory.unlisted) && Memory.wfFrom (k + 1) m

/-- The canonical form of memory. -/
def Memory.wf (m : Memory) : Bool := Memory.wfFrom 0 m

/-- `MemRead(addr, 1)` (R34), for `addr < 32768`. -/
def Memory.read (m : Memory) (addr : Nat) : Word :=
  wordOfBytes (Memory.byteAt m (2 * addr)) (Memory.byteAt m (2 * addr + 1))

/-- `MemWrite(addr, 1, v)` (R35), for `addr < 32768`. -/
def Memory.write (m : Memory) (addr : Nat) (v : Word) : Memory :=
  Memory.setByte (Memory.setByte m (2 * addr) (lowByte v)) (2 * addr + 1) (highByte v)

/-- RMEM's read: the word at a data address, passed on; an address that does not exist stops the model. -/
def withLoad (addr : Nat) (s : State) (k : Word → Result) : Result :=
  if addr < 32768 then k (Memory.read s.mem addr) else .fault (.addressOutsideMemory addr)

/-- WMEM's write: the state with the word at a data address set, passed on; an address that does not exist stops the
model. -/
def withStore (addr : Nat) (v : Word) (s : State) (k : State → Result) : Result :=
  if addr < 32768 then k { s with mem := Memory.write s.mem addr v } else .fault (.addressOutsideMemory addr)

/-! ### Registers and pc -/

/-- `x[i]` (10_state.md R14). -/
def State.readReg (s : State) (i : Fin 8) : Word := s.regs[i]

/-- `x[d] <- v`: register `d` gets `v mod 32768` (40_execution_cycle.md R67). -/
def State.writeReg (d : Fin 8) (v : Nat) (s : State) : State :=
  { s with regs := s.regs.set d (BitVec.ofNat 16 (v % 32768)) }

/-- The address `n` words after `pc`, a sum of naturals (R17), in the 16 bits of `pc` (decision D23). -/
def State.pcPlus (s : State) (n : Nat) : Word := BitVec.ofNat 16 (s.pc.toNat + n)

/-- `pc <- pc + n` (R69). -/
def State.advance (n : Nat) (s : State) : State := { s with pc := s.pcPlus n }

/-- `pc <- target` (R16, R69). -/
def State.jump (target : Word) (s : State) : State := { s with pc := target }

/-! ### Ends: faults, halts, suspension -/

/-- TAKING A FAULT, `raise K(info)` (60_exceptions.md R103): `status <- Faulted(K, info)` with the record, whose `at` is
`pc` (R26), and nothing else. There is no vector, no saved state and no return (R100, R116). -/
def State.raise (cause : FaultCause) (op : Option Word) (s : State) : State :=
  { s with status := .faulted ⟨cause, s.pc, op⟩ }

/-- The fault of an instruction that has been fetched: its opcode word goes into the record. -/
def State.raiseIn (o : Opcode) (cause : FaultCause) (s : State) : State :=
  s.raise cause (some (s.params.opcodes.number o))

/-- `halt(r)` (R101): `status <- Halted(r)` and nothing else. -/
def State.halt (r : HaltReason) (s : State) : State := { s with status := .halted r }

/-- The kind of a fault. -/
def FaultCause.kind : FaultCause → FaultKind
  | .invalidOperand _ _ _ => .invalidOperand
  | .unknownOpcode => .unknownOpcode
  | .emptyStackPop => .emptyStackPop
  | .divisionByZero => .divisionByZero
  | .fetchOutOfRange _ _ => .fetchOutOfRange
  | .stackOverflow => .stackOverflow

/-- The code of a kind (R99, decision D29). -/
def FaultKind.code : FaultKind → Nat
  | .invalidOperand => 1
  | .unknownOpcode => 2
  | .emptyStackPop => 3
  | .divisionByZero => 4
  | .fetchOutOfRange => 5
  | .stackOverflow => 6

/-- The fault record, if there is one (10_state.md R26, R30). -/
def State.faultRecord (s : State) : Option FaultRecord :=
  match s.status with
  | .faulted info => some info
  | _ => none

/-! ### Call stack (10_state.md R19 to R21) -/

/-- "the depth equals `STACK_MAX`" (R19). -/
def stackFull : StackMax → Nat → Bool
  | .infinity, _ => false
  | .atMost n, depth => depth == n

/-- `Push(v)` (R19): StackOverflow at capacity, else `v` is the new top and the instruction goes on. -/
def withPush (o : Opcode) (v : Word) (s : State) (k : State → Result) : Result :=
  if stackFull s.params.stackMax s.stack.length then .next (s.raiseIn o .stackOverflow)
  else k { s with stack := v :: s.stack }

/-- `if Empty() then … else Pop()` (R20, R21): the empty case is the instruction's own. -/
def withPop (s : State) (empty : Result) (k : Word → State → Result) : Result :=
  match s.stack with
  | [] => empty
  | v :: rest => k v { s with stack := rest }

end Sys2Proof.Machine
end

