-- ==== Sys2Proof/Machine/Flags.lean ====
section
/-! DEFINITION. The CORE has no condition codes (10_state.md R27): a comparison's truth value goes to a register, and the
only one-bit flag is `skip` (R22). Here: the truth value as a register value, and what reads and writes `skip`. -/

namespace Sys2Proof.Machine

/-- `(…) ? 1 : 0` (43_compare.md R88, R89). -/
def truthValue (b : Bool) : Nat := if b then 1 else 0

/-- The fast-forward signal's write (60_exceptions.md R114). -/
def State.setSkip (s : State) : State := { s with skip := true }

/-- `suspend` (45_io.md R97): `status <- AwaitingInput; skip <- 0`, and nothing else. -/
def State.suspend (s : State) : State := { s with status := .awaitingInput, skip := false }

/-- `Emit(c, skip)` (R96): append the event, with the current `skip`, to the output's sequence. -/
def State.emit (c : Word) (s : State) : State := { s with out := s.out ++ [⟨c, s.skip⟩] }

/-- `if InAvail() then InTake() …` (10_state.md R24): the oldest code is removed and passed on; with none, `empty`. -/
def withInput (s : State) (empty : Result) (k : Word → State → Result) : Result :=
  match s.inbuf with
  | [] => empty
  | c :: rest => k c { s with inbuf := rest }

end Sys2Proof.Machine
end

