-- ==== Sys2Proof/Machine/Operands.lean ====
section
/-! DEFINITION. Operand resolution (40_execution_cycle.md R64 to R66): the two resolvers, and the InvalidOperand fault
that ends an instruction at the first operand that fails. -/

namespace Sys2Proof.Machine

/-- `Val(w)` (R64): a literal below 32768, a register's contents for 32768..32775, nothing from 32776. A register's
contents are never resolved again. -/
def valOf (s : State) (w : Word) : Option Word :=
  if w.toNat < 32768 then some w
  else if h : w.toNat < 32776 then some (s.readReg ⟨w.toNat - 32768, by omega⟩)
  else none

/-- `Dest(w)` (R65): register `w mod 32768`, if that is below 8 (decision D4). It reads no register. -/
def destOf (w : Word) : Option (Fin 8) :=
  if h : w.toNat % 32768 < 8 then some ⟨w.toNat % 32768, h⟩ else none

/-- `raise InvalidOperand(i, pc+i, w_i)` (R66, R105). -/
def State.raiseOperand (o : Opcode) (position : Nat) (w : Word) (s : State) : State :=
  s.raiseIn o (.invalidOperand position (s.pc.toNat + position) w)

/-- Resolve a value operand and go on with its value, or fault. -/
def withVal (o : Opcode) (position : Nat) (w : Word) (s : State) (k : Word → Result) : Result :=
  match valOf s w with
  | some v => k v
  | none => .next (s.raiseOperand o position w)

/-- Resolve a destination operand and go on with its register, or fault. -/
def withDest (o : Opcode) (position : Nat) (w : Word) (s : State) (k : Fin 8 → Result) : Result :=
  match destOf w with
  | some d => k d
  | none => .next (s.raiseOperand o position w)

/-- The shape `d <- Dest(w1); v <- Val(w2); …` of SET, NOT and RMEM. -/
def withDestVal (o : Opcode) (a b : Word) (s : State) (k : Fin 8 → Word → Result) : Result :=
  withDest o 1 a s fun d => withVal o 2 b s fun v => k d v

/-- The shape `d <- Dest(w1); u <- Val(w2); v <- Val(w3); …` of EQ, GT, ADD, MULT, MOD, AND and OR. -/
def withDestValVal (o : Opcode) (a b c : Word) (s : State) (k : Fin 8 → Word → Word → Result) : Result :=
  withDest o 1 a s fun d => withVal o 2 b s fun u => withVal o 3 c s fun v => k d u v

/-- The shape `u <- Val(w1); v <- Val(w2); …` of JT, JF and WMEM. -/
def withValVal (o : Opcode) (a b : Word) (s : State) (k : Word → Word → Result) : Result :=
  withVal o 1 a s fun u => withVal o 2 b s fun v => k u v

end Sys2Proof.Machine
end

