-- ==== Sys2Proof/Machine/ArithLogic.lean ====
section
/-! DEFINITION. Arithmetic and logic instructions (44_arith_logic.md R90 to R95). Results are computed exactly on
naturals (00_scope.md R7) and reduced mod 32768 by the register write (R67). -/

namespace Sys2Proof.Machine

/-- ADD (R90): `x[d] <- (u + v) mod 32768; pc <- pc + 4`. -/
def execAdd (a b c : Word) (s : State) : Result :=
  withDestValVal .add a b c s fun d u v => .next ((s.writeReg d (u.toNat + v.toNat)).advance 4)

/-- MULT (R91): `x[d] <- (u * v) mod 32768; pc <- pc + 4`. -/
def execMult (a b c : Word) (s : State) : Result :=
  withDestValVal .mult a b c s fun d u v => .next ((s.writeReg d (u.toNat * v.toNat)).advance 4)

/-- MOD (R92): DivisionByZero for a zero divisor (decision D6), else `x[d] <- u mod v; pc <- pc + 4`. -/
def execMod (a b c : Word) (s : State) : Result :=
  withDestValVal .mod a b c s fun d u v =>
    if v.toNat = 0 then .next (s.raiseIn .mod .divisionByZero)
    else .next ((s.writeReg d (u.toNat % v.toNat)).advance 4)

/-- AND (R93): `x[d] <- u & v; pc <- pc + 4`. -/
def execAnd (a b c : Word) (s : State) : Result :=
  withDestValVal .and a b c s fun d u v => .next ((s.writeReg d (u.toNat &&& v.toNat)).advance 4)

/-- OR (R94): `x[d] <- u | v; pc <- pc + 4`. -/
def execOr (a b c : Word) (s : State) : Result :=
  withDestValVal .or a b c s fun d u v => .next ((s.writeReg d (u.toNat ||| v.toNat)).advance 4)

/-- The 15-bit bitwise complement of a word's low 15 bits, `(~v) & 0x7FFF`; for `v` below 32768 it is `32767 - v`
(R95). -/
def complement15 (v : Word) : Nat := (~~~v).toNat % 32768

/-- NOT (R95): `x[d] <- 32767 - v; pc <- pc + 3`. -/
def execNot (a b : Word) (s : State) : Result :=
  withDestVal .not a b s fun d v => .next ((s.writeReg d (complement15 v)).advance 3)

end Sys2Proof.Machine
end

