-- ==== Sys2Proof/Machine/Compare.lean ====
section
/-! DEFINITION. Comparison instructions (43_compare.md R88, R89). Values are compared as naturals (00_scope.md R6, R7). -/

namespace Sys2Proof.Machine

/-- EQ (R88): `x[d] <- (u == v) ? 1 : 0; pc <- pc + 4`. -/
def execEq (a b c : Word) (s : State) : Result :=
  withDestValVal .eq a b c s fun d u v =>
    .next ((s.writeReg d (truthValue (u.toNat == v.toNat))).advance 4)

/-- GT (R89): `x[d] <- (u > v) ? 1 : 0; pc <- pc + 4`, unsigned. -/
def execGt (a b c : Word) (s : State) : Result :=
  withDestValVal .gt a b c s fun d u v =>
    .next ((s.writeReg d (truthValue (decide (u.toNat > v.toNat)))).advance 4)

end Sys2Proof.Machine
end

