-- ==== Sys2Proof/Machine/Control.lean ====
section
/-! DEFINITION. Control instructions (41_control.md R76 to R82). -/

namespace Sys2Proof.Machine

/-- HALT (R76): `halt(HALT)`; `pc` stays on the HALT. -/
def execHalt (s : State) : Result := .next (s.halt .halt)

/-- JMP (R77): `t <- Val(w1); pc <- t`. -/
def execJmp (a : Word) (s : State) : Result :=
  withVal .jmp 1 a s fun t => .next (s.jump t)

/-- JT (R78): jump if the test value is nonzero; the target is resolved either way (decision D8). -/
def execJt (a b : Word) (s : State) : Result :=
  withValVal .jt a b s fun v t => .next (if v ≠ 0 then s.jump t else s.advance 3)

/-- JF (R79): jump if the test value is zero; the target is resolved either way (decision D8). -/
def execJf (a b : Word) (s : State) : Result :=
  withValVal .jf a b s fun v t => .next (if v = 0 then s.jump t else s.advance 3)

/-- CALL (R80): `t <- Val(w1); Push(pc + 2); pc <- t`. -/
def execCall (a : Word) (s : State) : Result :=
  withVal .call 1 a s fun t => withPush .call (s.pcPlus 2) s fun s' => .next (s'.jump t)

/-- RET (R81): `if Empty() then halt(RET_EMPTY) else pc <- Pop()`. -/
def execRet (s : State) : Result :=
  withPop s (.next (s.halt .retEmpty)) fun v s' => .next (s'.jump v)

/-- NOP (R82): `pc <- pc + 1`. -/
def execNop (s : State) : Result := .next (s.advance 1)

end Sys2Proof.Machine
end

