-- ==== Sys2Proof/Machine/DataMove.lean ====
section
/-! DEFINITION. Data movement instructions (42_data_movement.md R83 to R87). -/

namespace Sys2Proof.Machine

/-- SET (R83): `x[d] <- v; pc <- pc + 3` (conflict C1: 3 words). -/
def execSet (a b : Word) (s : State) : Result :=
  withDestVal .set a b s fun d v => .next ((s.writeReg d v.toNat).advance 3)

/-- PUSH (R84): `v <- Val(w1); Push(v); pc <- pc + 2`. -/
def execPush (a : Word) (s : State) : Result :=
  withVal .push 1 a s fun v => withPush .push v s fun s' => .next (s'.advance 2)

/-- POP (R85): the destination first, then EmptyStackPop on an empty stack (decision D5), else `x[d] <- Pop()`. -/
def execPop (a : Word) (s : State) : Result :=
  withDest .pop 1 a s fun d =>
    withPop s (.next (s.raiseIn .pop .emptyStackPop)) fun v s' => .next ((s'.writeReg d v.toNat).advance 2)

/-- RMEM (R86): `x[d] <- MemRead(addr, 1) mod 32768; pc <- pc + 3` (conflict C5). -/
def execRmem (a b : Word) (s : State) : Result :=
  withDestVal .rmem a b s fun d addr =>
    withLoad addr.toNat s fun v => .next ((s.writeReg d v.toNat).advance 3)

/-- WMEM (R87): `MemWrite(addr, 1, v); pc <- pc + 3`. The address is a value, not a destination. -/
def execWmem (a b : Word) (s : State) : Result :=
  withValVal .wmem a b s fun addr v =>
    withStore addr.toNat v s fun s' => .next (s'.advance 3)

end Sys2Proof.Machine
end

