-- ==== Sys2Proof/Machine/Io.lean ====
section
/-! DEFINITION. Input/output instructions (45_io.md R96, R97). -/

namespace Sys2Proof.Machine

/-- OUT (R96): `c <- Val(w1); Emit(c, skip); pc <- pc + 2`. The sink never refuses (decision D16). -/
def execOut (a : Word) (s : State) : Result :=
  withVal .out 1 a s fun c => .next ((s.emit c).advance 2)

/-- IN (R97): the destination first; then take the oldest code, written mod 32768, or suspend on an empty buffer, leaving
`pc` on the IN. -/
def execIn (a : Word) (s : State) : Result :=
  withDest .inp 1 a s fun d =>
    withInput s (.next s.suspend) fun code s' => .next ((s'.writeReg d code.toNat).advance 2)

end Sys2Proof.Machine
end

