-- ==== Sys2Proof/Machine/Fetch.lean ====
section
/-! DEFINITION. Fetching (40_execution_cycle.md R61, R63) and placing words where the next fetch reads them. -/

namespace Sys2Proof.Machine

/-- `Fetch(addr)` (R61): nothing from 32768 on, with no wrap-around. -/
def fetch (m : Memory) (addr : Nat) : Option Word :=
  if addr < 32768 then some (Memory.read m addr) else none

/-- The words the decoder is given: those at `pc` to `pc + 3` that memory has. Reading a word has no side effect (R34),
so reading more words than the instruction has changes nothing. -/
def State.window (s : State) : List Word :=
  [s.pc.toNat, s.pc.toNat + 1, s.pc.toNat + 2, s.pc.toNat + 3].filterMap (fetch s.mem)

/-- The fault of a step whose words are no instruction, in the order of R60: FetchOutOfRange at `pc`, UnknownOpcode,
FetchOutOfRange at the lowest missing operand (R107, R104). -/
def State.raiseDecode (s : State) : DecodeError → State
  | .noOpcode => s.raise (.fetchOutOfRange none s.pc.toNat) none
  | .unknownOpcode w => s.raise .unknownOpcode (some w)
  | .missingOperand w position => s.raise (.fetchOutOfRange (some position) (s.pc.toNat + position)) (some w)

/-- Fetch and decode at `pc` (R60 actions 1 to 3), under the CORE's own opcode map. -/
def State.fetchInstr (s : State) : Except DecodeError Instr :=
  match decode s.params.opcodes s.window with
  | .ok (i, _) => .ok i
  | .error e => .error e

/-- Memory with words placed one after another from an address; a word that would fall outside memory is dropped. -/
def Memory.place : Memory → Nat → List Word → Memory
  | m, _, [] => m
  | m, a, w :: ws => Memory.place (if a < 32768 then Memory.write m a w else m) (a + 1) ws

/-- The state with a row's words at `pc` and the engine `Running`, as the host's `start` leaves it (R111). -/
def State.placeAtPc (s : State) (nbits w : Nat) : State :=
  { s with mem := Memory.place s.mem s.pc.toNat (tableWords nbits w), status := .running }

end Sys2Proof.Machine
end

