-- ==== Sys2Proof/Machine/Cycle.lean ====
section
/-! DEFINITION. The step's body (40_execution_cycle.md R59, R60). -/

namespace Sys2Proof.Machine

/-- One whole instruction (R60): fetch, decode, run, or take the fault of the fetch or of the decoding. -/
def runInstr (s : State) : Result :=
  match s.fetchInstr with
  | .ok i => exec i s
  | .error e => .next (s.raiseDecode e)

/-- An engine that is not `Running` runs no instruction (R59): it stays as it is. -/
def idle (s : State) : Result := .next s

/-- One step: an instruction in `Running`, nothing in any other status. -/
def stepBody (s : State) : Result :=
  match s.status with
  | .running => runInstr s
  | .ready => idle s
  | .awaitingInput => idle s
  | .halted _ => idle s
  | .faulted _ => idle s

end Sys2Proof.Machine
end

