-- ==== Sys2Proof/Machine/Step.lean ====
section
/-! DEFINITION. The step, and a state whose next step runs a given instruction. -/

namespace Sys2Proof.Machine

/-- One step of the machine (40_execution_cycle.md R59, R60). -/
def step (s : State) : Host.Outcome State Fault Refusal := stepBody s

/-- The state with the words of a row placed at `pc` and the engine `Running`: the next step fetches and runs them. It
stands for loading an image that holds them and the host's `start`. -/
def State.withFetchWord (s : State) (nbits w : Nat) : State := s.placeAtPc nbits w

end Sys2Proof.Machine
end

