-- ==== Sys2Proof/Machine/Boot.lean ====
section
/-! DEFINITION. Program loading and reset with an image (20_memory.md R32; 70_reset_and_hazards.md R122). -/

namespace Sys2Proof.Machine

/-- The cells of consecutive bytes from a key on, in canonical form. Byte `k` of the image is the byte at key `k`: word `i`
is then `b[2i] + 256 * b[2i+1]`. -/
def imageCells : Nat → List Byte → Memory
  | _, [] => []
  | k, b :: bs => Memory.consByte k b (imageCells (k + 1) bs)

/-- The loader (R32): refused if the number of bytes is odd or gives more than 32768 words (decision D17). -/
def loadImage (image : List Byte) : Option Memory :=
  if image.length % 2 = 0 ∧ image.length / 2 ≤ 32768 then some (imageCells 0 image) else none

/-- Reset with an image (R122): every piece of state takes the value of 10_state.md R30; nothing of an old CORE
survives. A refused image gives no CORE. -/
def bootImage (p : Params) (image : List Byte) : Option State :=
  match loadImage image with
  | some m => some { State.reset with params := p, mem := m }
  | none => none

end Sys2Proof.Machine
end

