-- ==== Sys2Proof/Machine/HostPort.lean ====
section
/-! DEFINITION. The host's actions (60_exceptions.md R110 to R114). They happen only between steps, and change only
`status`, `skip` and `inbuf` (R108). -/

namespace Sys2Proof.Machine

/-- The host's actions (R110). -/
inductive HostAction where
  | start
  | resume
  | append (codes : List Word)
  | signal
  deriving DecidableEq, Repr

/-- What a host action returns at once (R110). -/
inductive HostReply where
  /-- `append` and `signal` return nothing -/
  | nothing
  /-- `start` in `Running` or `AwaitingInput` -/
  | notReady
  /-- `resume` in `Running` or `Ready` -/
  | notSuspended
  /-- `start` or `resume` in `Halted` or `Faulted`: the unchanged status -/
  | unchanged (status : Status)
  /-- the engine now runs; the call returns when `status` leaves `Running`, with the status (R71) -/
  | runs
  deriving DecidableEq, Repr

/-- `start` (R111) acts in `Ready` only. -/
def hostStart (s : State) : State × HostReply :=
  match s.status with
  | .ready => ({ s with status := .running }, .runs)
  | .running => (s, .notReady)
  | .awaitingInput => (s, .notReady)
  | .halted r => (s, .unchanged (.halted r))
  | .faulted info => (s, .unchanged (.faulted info))

/-- `resume` (R112) acts in `AwaitingInput` only. -/
def hostResume (s : State) : State × HostReply :=
  match s.status with
  | .ready => (s, .notSuspended)
  | .running => (s, .notSuspended)
  | .awaitingInput => ({ s with status := .running }, .runs)
  | .halted r => (s, .unchanged (.halted r))
  | .faulted info => (s, .unchanged (.faulted info))

/-- `append(codes)` (R113): in any status, to the end of `inbuf`. -/
def hostAppend (codes : List Word) (s : State) : State × HostReply :=
  ({ s with inbuf := s.inbuf ++ codes }, .nothing)

/-- `signal` (R114): sets `skip` in `Running`, does nothing in any other status. -/
def hostSignal (s : State) : State × HostReply :=
  match s.status with
  | .running => (s.setSkip, .nothing)
  | .ready => (s, .nothing)
  | .awaitingInput => (s, .nothing)
  | .halted _ => (s, .nothing)
  | .faulted _ => (s, .nothing)

/-- One host action between two steps. -/
def hostAct : HostAction → State → State × HostReply
  | .start, s => hostStart s
  | .resume, s => hostResume s
  | .append codes, s => hostAppend codes s
  | .signal, s => hostSignal s

end Sys2Proof.Machine
end

