-- ==== Sys2Proof/Safety.lean ====
section
/-! DEFINITION. The terms claims are stated in: frames, the invariants of the machine's states, the states a run with its
host can reach, and what a host call returns. -/

namespace Sys2Proof.Machine

/-! ### Frames -/

/-- A part of the state that an instruction may change. `memWord a` is the word at address `a`. -/
inductive Component where
  | reg (d : Fin 8)
  | pc
  | stack
  | memWord (addr : Nat)
  | status
  | skip
  | inbuf
  | out
  deriving DecidableEq, Repr

/-- From `s` to `t` nothing changes but the components named: every other register, every byte of memory outside the
named words, and so on. The parameters never change. -/
structure Frame (changed : List Component) (s t : State) : Prop where
  regs : ∀ r, Component.reg r ∉ changed → t.readReg r = s.readReg r
  pc : Component.pc ∉ changed → t.pc = s.pc
  stack : Component.stack ∉ changed → t.stack = s.stack
  bytes : ∀ a, Component.memWord (a / 2) ∉ changed → Memory.byteAt t.mem a = Memory.byteAt s.mem a
  status : Component.status ∉ changed → t.status = s.status
  skip : Component.skip ∉ changed → t.skip = s.skip
  inbuf : Component.inbuf ∉ changed → t.inbuf = s.inbuf
  out : Component.out ∉ changed → t.out = s.out
  params : t.params = s.params

/-- The state in which nothing has changed but `status`, which holds a fault record: the cause, the address `pc` and the
opcode word, if it was fetched (10_state.md R26). -/
def State.faultedBy (s : State) (cause : FaultCause) (op : Option Word) : State :=
  { s with status := .faulted ⟨cause, s.pc, op⟩ }

/-- The same for a fault of instruction `i`, whose opcode word the record holds. -/
def State.faultedWith (s : State) (cause : FaultCause) (i : Instr) : State :=
  s.faultedBy cause (some (s.params.opcodes.number i.opcode))

/-- The faults that the template of 41_control.md gives every instruction ("fetch/operand faults"), the opcode number of
`i` being the one its CORE's map gives it. -/
structure CommonFaults (i : Instr) : Prop where
  /-- An invalid operand word takes InvalidOperand at the lowest invalid position (40_execution_cycle.md R66). -/
  operand : ∀ s position w, i.firstInvalid = some (position, w) →
    exec i s = .next (s.faultedWith (.invalidOperand position (s.pc.toNat + position) w) i)
  /-- An operand word that would be at 32768 takes FetchOutOfRange, whatever the operand words before it are (R63). An
  opcode number of 32768 or more is no instruction's opcode word (D24): it takes UnknownOpcode (`unknownNumber`). -/
  operandFetch : ∀ s position, s.params.opcodes.Injective → (s.params.opcodes.number i.opcode).toNat < 32768 → s.status = .running → s.pc.toNat < 32768 →
    Memory.read s.mem s.pc.toNat = s.params.opcodes.number i.opcode →
    1 ≤ position → position ≤ i.opcode.arity → s.pc.toNat + position = 32768 →
    step s = .next (s.faultedWith (.fetchOutOfRange (some position) 32768) i)
  /-- A map that gives `i` a number of 32768 or more (log 17) leaves it no opcode word: that word is unknown (D24, R45). -/
  unknownNumber : ∀ s, s.status = .running → s.pc.toNat < 32768 →
    32768 ≤ (s.params.opcodes.number i.opcode).toNat →
    Memory.read s.mem s.pc.toNat = s.params.opcodes.number i.opcode →
    step s = .next (s.faultedWith .unknownOpcode i)
  /-- No instruction is fetched from 32768 on (R61). -/
  opcodeFetch : ∀ s, s.status = .running → 32768 ≤ s.pc.toNat →
    step s = .next (s.faultedBy (.fetchOutOfRange none s.pc.toNat) none)

/-- `i` goes on from `s` and leaves the number `n` in register `d`. -/
def Writes (i : Instr) (s : State) (d : Fin 8) (n : Nat) : Prop :=
  ∃ t, exec i s = .next t ∧ (t.readReg d).toNat = n

/-! ### Invariants -/

/-- What the data of every reachable state satisfy: register values below 32768 (10_state.md R14), `pc` at most 32768
(R17), stack entries below 32769 (R19), depth within `STACK_MAX`, memory in canonical form, output codes 15 bits
(60_exceptions.md R115), parameters that R4 and R5 admit. -/
structure DataInv (s : State) : Prop where
  params : s.params.Valid
  regs : ∀ r, (s.readReg r).toNat < 32768
  pc : s.pc.toNat ≤ 32768
  stack : ∀ v ∈ s.stack, v.toNat ≤ 32768
  depth : s.params.stackMax.admits s.stack.length = true
  mem : Memory.wf s.mem = true
  out : ∀ e ∈ s.out, e.code.toNat < 32768

/-- What `status` says about the rest of a reachable state: a `Ready` engine has the values of reset but for memory and
input (R30, R111), a suspended one stands on an IN with `skip` clear (R28, R97), a halted one stands on the instruction
that halted (R101), a faulted one has its record's address in `pc` (R26). -/
structure ControlInv (s : State) : Prop where
  ready : s.status = .ready →
    s.pc = 0 ∧ (∀ r, s.readReg r = 0) ∧ s.stack = [] ∧ s.skip = false ∧ s.out = []
  awaiting : s.status = .awaitingInput →
    s.skip = false ∧ ∃ a rest, decode s.params.opcodes s.window = .ok (.inp a, rest) ∧ destOf a ≠ none
  haltedByHalt : s.status = .halted .halt → ∃ rest, decode s.params.opcodes s.window = .ok (.halt, rest)
  haltedByRet : s.status = .halted .retEmpty →
    s.stack = [] ∧ ∃ rest, decode s.params.opcodes s.window = .ok (.ret, rest)
  faulted : ∀ info, s.status = .faulted info → info.at_ = s.pc

/-! ### Runs -/

/-- The states of a CORE with parameters `p`: reset with any image that loads, then steps and host actions in any order
(60_exceptions.md R110). -/
inductive Reachable (p : Params) : State → Prop where
  | boot (image : List Byte) (s : State) : bootImage p image = some s → Reachable p s
  | step (s t : State) : Reachable p s → step s = .next t → Reachable p t
  | host (a : HostAction) (s : State) : Reachable p s → Reachable p (hostAct a s).1

/-- The call of a host that has set the engine `Running` in `s` returns with the engine in `t`, with no host action between
its steps (log 8): some number of steps leads to `t`, and there `status` is no longer `Running` (40_execution_cycle.md
R71). Steps counted after the end are idle (log 5). -/
def CallReturns (s t : State) : Prop :=
  ∃ n, Sys2Proof.core.run n s = .next t ∧ t.status ≠ .running

/-- The states of a host call that has set the engine `Running` in `s`: its steps, each taken in `Running`, with any host
actions between them (R59, R110, R130). -/
inductive CallGoesOn (s : State) : State → Prop where
  | begin : CallGoesOn s s
  | step (t u : State) : CallGoesOn s t → t.status = .running → step t = .next u → CallGoesOn s u
  | host (a : HostAction) (t : State) : CallGoesOn s t → t.status = .running → CallGoesOn s (hostAct a t).1

/-- A state with the skip-delay flag and its copies in the output events forgotten. -/
def State.eraseSkip (s : State) : State :=
  { s with skip := false, out := s.out.map fun e => ⟨e.code, false⟩ }

end Sys2Proof.Machine
end

