-- ==== Sys2Proof/Certificates/Slice0/Obligations.lean ====
section
/-! DEFINITION. The statements for the provers. Each docstring names the rule of spec/ it formalises. The instruction rules
(R76 to R97) share one form: the encoding under the default opcode map (the spec's decision D1), the fetch and operand faults
of the template (`CommonFaults`, Safety.lean), and the effect with its frame on operands that resolve. Each of them rests on
choices that are not the source's: the opcode number on D1 (log 1), the common faults on D3, D4, D8 and D29 (log 14),
and for a map with numbers from 32768 on D24 (log 17). Those and every other statement that rests on a decision of
92_eei_decisions.md or on a log entry name it, and are 'derived'. -/

open Sys2Proof Sys2Proof.Machine

/-! ### Control instructions -/

/-- R76 (decisions D1, D10, D11; the step after it log 5). HALT is `[0]`; it sets `Halted(HALT)` and changes nothing
else; no later step or resume does anything; and under the default map a running engine that reaches a zero word halts.
Not the source's: the opcode number (D1, log 1) and the common faults (D3, D29, log 14). -/
def Obligations.HaltStopsCleanly : Prop :=
  encode defaultOpcodes .halt = [0] ∧ CommonFaults .halt ∧
  (∀ s, ∃ t, exec .halt s = .next t ∧ t.status = .halted .halt ∧ Frame [.status] s t ∧
    step t = .next t ∧ hostAct .resume t = (t, .unchanged (.halted .halt))) ∧
  (∀ s, s.params.opcodes = defaultOpcodes → s.status = .running → s.pc.toNat < 32768 →
    Memory.read s.mem s.pc.toNat = 0 → step s = exec .halt s)

/-- R77. JMP sets `pc` to its resolved target, and changes nothing else. A jump to itself leaves the whole state. Not
the source's: the opcode number (D1, log 1) and the common faults (D3, D8, D29, log 14). -/
def Obligations.JmpGoesToItsTarget : Prop :=
  ∀ a, encode defaultOpcodes (.jmp a) = [6, a] ∧ CommonFaults (.jmp a) ∧
    ∀ s target, valOf s a = some target →
      (∃ t, exec (.jmp a) s = .next t ∧ t.pc = target ∧ Frame [.pc] s t) ∧
      (target = s.pc → exec (.jmp a) s = .next s)

/-- R78. JT jumps exactly if its test value is nonzero (its target is resolved either way, decision D8), else goes on
after its 3 words. Not the source's: the opcode number (D1, log 1) and the common faults (D3, D8, D29, log 14). -/
def Obligations.JtJumpsIfNonzero : Prop :=
  ∀ a b, encode defaultOpcodes (.jt a b) = [7, a, b] ∧ CommonFaults (.jt a b) ∧
    ∀ s v target, valOf s a = some v → valOf s b = some target → s.pc.toNat < 32768 →
      ∃ t, exec (.jt a b) s = .next t ∧ Frame [.pc] s t ∧
        (v.toNat ≠ 0 → t.pc = target) ∧ (v.toNat = 0 → t.pc.toNat = s.pc.toNat + 3)

/-- R79. JF jumps exactly if its test value is zero (its target is resolved either way, decision D8), else goes on after
its 3 words. Not the source's: the opcode number (D1, log 1) and the common faults (D3, D8, D29, log 14). -/
def Obligations.JfJumpsIfZero : Prop :=
  ∀ a b, encode defaultOpcodes (.jf a b) = [8, a, b] ∧ CommonFaults (.jf a b) ∧
    ∀ s v target, valOf s a = some v → valOf s b = some target → s.pc.toNat < 32768 →
      ∃ t, exec (.jf a b) s = .next t ∧ Frame [.pc] s t ∧
        (v.toNat = 0 → t.pc = target) ∧ (v.toNat ≠ 0 → t.pc.toNat = s.pc.toNat + 3)

/-- R80 (decisions D7, D28; the bound taken literally, log 10). CALL pushes the address of the word after it and jumps;
with `STACK_MAX` entries on the stack it takes StackOverflow; and a RET that finds the stack as the CALL left it returns
to the word after the CALL. Not the source's: the opcode number (D1, log 1) and the common faults (D3, D8, D29, log 14).
-/
def Obligations.CallPushesReturnAddress : Prop :=
  ∀ a, encode defaultOpcodes (.call a) = [17, a] ∧ CommonFaults (.call a) ∧
    ∀ s target, valOf s a = some target →
      (s.params.stackMax = .atMost s.stack.length → exec (.call a) s = .next (s.faultedWith .stackOverflow (.call a))) ∧
      (s.params.stackMax ≠ .atMost s.stack.length → s.pc.toNat < 32768 →
        ∃ t ret, exec (.call a) s = .next t ∧ t.pc = target ∧ t.stack = ret :: s.stack ∧
          ret.toNat = s.pc.toNat + 2 ∧ Frame [.pc, .stack] s t ∧
          ∀ u, u.stack = t.stack → ∃ u', exec .ret u = .next u' ∧ u'.pc.toNat = s.pc.toNat + 2 ∧ u'.stack = s.stack)

/-- R81 (decisions D10, D11). RET pops the top entry into `pc`; on an empty stack it sets `Halted(RET_EMPTY)` and
changes nothing else. Not the source's: the opcode number (D1, log 1) and the common faults (D3, D29, log 14). -/
def Obligations.RetReturnsOrHalts : Prop :=
  encode defaultOpcodes .ret = [18] ∧ CommonFaults .ret ∧
  ∀ s,
    (s.stack = [] → ∃ t, exec .ret s = .next t ∧ t.status = .halted .retEmpty ∧ Frame [.status] s t) ∧
    (∀ v rest, s.stack = v :: rest →
      ∃ t, exec .ret s = .next t ∧ t.pc = v ∧ t.stack = rest ∧ Frame [.pc, .stack] s t)

/-- R82. NOP moves `pc` on by one word and changes nothing else. Not the source's: the opcode number (D1, log 1) and the
common faults (D3, D29, log 14). -/
def Obligations.NopOnlyAdvances : Prop :=
  encode defaultOpcodes .nop = [21] ∧ CommonFaults .nop ∧
  ∀ s : State, s.pc.toNat < 32768 →
    ∃ t, exec .nop s = .next t ∧ t.pc.toNat = s.pc.toNat + 1 ∧ Frame [.pc] s t

/-! ### Data movement instructions -/

/-- R83 (decision D4 for the destination words). SET writes the value of `b` to its destination and is 3 words long
(conflict C1). Not the source's: the opcode number (D1, log 1) and the common faults (D3, D4, D8, D29, log 14). -/
def Obligations.SetCopiesValue : Prop :=
  ∀ a b, encode defaultOpcodes (.set a b) = [1, a, b] ∧ CommonFaults (.set a b) ∧
    ∀ s d v, destOf a = some d → valOf s b = some v → s.pc.toNat < 32768 →
      ∃ t, exec (.set a b) s = .next t ∧ (t.readReg d).toNat = v.toNat % 32768 ∧
        t.pc.toNat = s.pc.toNat + 3 ∧ Frame [.reg d, .pc] s t

/-- R84 (decision D7; the bound taken literally, log 10). PUSH puts the resolved value on the stack; with `STACK_MAX`
entries on the stack it takes StackOverflow. Not the source's: the opcode number (D1, log 1) and the common faults (D3,
D8, D29, log 14). -/
def Obligations.PushPutsValueOnTop : Prop :=
  ∀ a, encode defaultOpcodes (.push a) = [2, a] ∧ CommonFaults (.push a) ∧
    ∀ s v, valOf s a = some v →
      (s.params.stackMax = .atMost s.stack.length → exec (.push a) s = .next (s.faultedWith .stackOverflow (.push a))) ∧
      (s.params.stackMax ≠ .atMost s.stack.length → s.pc.toNat < 32768 →
        ∃ t, exec (.push a) s = .next t ∧ t.stack = v :: s.stack ∧ t.pc.toNat = s.pc.toNat + 2 ∧
          Frame [.stack, .pc] s t)

/-- R85 (decision D5). POP takes the top entry into its destination, reduced mod 32768; on an empty stack it takes
EmptyStackPop. Not the source's: the opcode number (D1, log 1) and the common faults (D3, D4, D8, D29, log 14). -/
def Obligations.PopTakesTop : Prop :=
  ∀ a, encode defaultOpcodes (.pop a) = [3, a] ∧ CommonFaults (.pop a) ∧
    ∀ s d, destOf a = some d →
      (s.stack = [] → exec (.pop a) s = .next (s.faultedWith .emptyStackPop (.pop a))) ∧
      (∀ v rest, s.stack = v :: rest → s.pc.toNat < 32768 →
        ∃ t, exec (.pop a) s = .next t ∧ (t.readReg d).toNat = v.toNat % 32768 ∧ t.stack = rest ∧
          t.pc.toNat = s.pc.toNat + 2 ∧ Frame [.reg d, .stack, .pc] s t)

/-- R86. RMEM writes the word at the address, reduced mod 32768, to its destination. The hypothesis that the address is
in memory holds in every state that meets the data invariant (R36), as the last clause says. Not the source's: the
opcode number (D1, log 1) and the common faults (D3, D4, D8, D29, log 14). -/
def Obligations.RmemReadsMemory : Prop :=
  ∀ a b, encode defaultOpcodes (.rmem a b) = [15, a, b] ∧ CommonFaults (.rmem a b) ∧
    ∀ s d addr, destOf a = some d → valOf s b = some addr →
      (addr.toNat < 32768 → s.pc.toNat < 32768 →
        ∃ t, exec (.rmem a b) s = .next t ∧ (t.readReg d).toNat = (Memory.read s.mem addr.toNat).toNat % 32768 ∧
          t.pc.toNat = s.pc.toNat + 3 ∧ Frame [.reg d, .pc] s t) ∧
      (DataInv s → addr.toNat < 32768)

/-- R87 (memory's canonical form is log 2). WMEM writes its value to the word at the value of `a`, and changes no other
byte of memory, whatever that address is, its own words included. The hypotheses that memory is in canonical form and
the address in memory hold in every state that meets the data invariant (R36), and there the value written is below
32768, as the last clause says. Not the source's: the opcode number (D1, log 1) and the common faults (D3, D8, D29, log
14). -/
def Obligations.WmemWritesMemory : Prop :=
  ∀ a b, encode defaultOpcodes (.wmem a b) = [16, a, b] ∧ CommonFaults (.wmem a b) ∧
    ∀ s addr v, valOf s a = some addr → valOf s b = some v →
      (Memory.wf s.mem = true → addr.toNat < 32768 → s.pc.toNat < 32768 →
        ∃ t, exec (.wmem a b) s = .next t ∧ Memory.read t.mem addr.toNat = v ∧
          t.pc.toNat = s.pc.toNat + 3 ∧ Frame [.memWord addr.toNat, .pc] s t) ∧
      (DataInv s → Memory.wf s.mem = true ∧ addr.toNat < 32768 ∧ v.toNat < 32768)

/-! ### Comparison instructions -/

/-- R88. EQ writes 1 if the resolved values are equal and 0 otherwise. Not the source's: the opcode number (D1, log 1)
and the common faults (D3, D4, D8, D29, log 14). -/
def Obligations.EqComparesValues : Prop :=
  ∀ a b c, encode defaultOpcodes (.eq a b c) = [4, a, b, c] ∧ CommonFaults (.eq a b c) ∧
    ∀ s d u v, destOf a = some d → valOf s b = some u → valOf s c = some v → s.pc.toNat < 32768 →
      ∃ t, exec (.eq a b c) s = .next t ∧ (u = v → (t.readReg d).toNat = 1) ∧ (u ≠ v → (t.readReg d).toNat = 0) ∧
        t.pc.toNat = s.pc.toNat + 4 ∧ Frame [.reg d, .pc] s t

/-- R89. GT writes 1 if the first value is greater, as an unsigned number, and 0 otherwise. Not the source's: the opcode
number (D1, log 1) and the common faults (D3, D4, D8, D29, log 14). -/
def Obligations.GtComparesUnsigned : Prop :=
  ∀ a b c, encode defaultOpcodes (.gt a b c) = [5, a, b, c] ∧ CommonFaults (.gt a b c) ∧
    ∀ s d u v, destOf a = some d → valOf s b = some u → valOf s c = some v → s.pc.toNat < 32768 →
      ∃ t, exec (.gt a b c) s = .next t ∧ (v.toNat < u.toNat → (t.readReg d).toNat = 1) ∧
        (u.toNat ≤ v.toNat → (t.readReg d).toNat = 0) ∧
        t.pc.toNat = s.pc.toNat + 4 ∧ Frame [.reg d, .pc] s t

/-! ### Arithmetic and logic instructions -/

/-- R90. ADD writes the sum modulo 32768. Not the source's: the opcode number (D1, log 1) and the common faults (D3, D4,
D8, D29, log 14). -/
def Obligations.AddWrapsAt32768 : Prop :=
  ∀ a b c, encode defaultOpcodes (.add a b c) = [9, a, b, c] ∧ CommonFaults (.add a b c) ∧
    ∀ s d u v, destOf a = some d → valOf s b = some u → valOf s c = some v → s.pc.toNat < 32768 →
      ∃ t, exec (.add a b c) s = .next t ∧ (t.readReg d).toNat = (u.toNat + v.toNat) % 32768 ∧
        t.pc.toNat = s.pc.toNat + 4 ∧ Frame [.reg d, .pc] s t

/-- R91. MULT writes the low 15 bits of the exact product. Not the source's: the opcode number (D1, log 1) and the
common faults (D3, D4, D8, D29, log 14). -/
def Obligations.MultWrapsAt32768 : Prop :=
  ∀ a b c, encode defaultOpcodes (.mult a b c) = [10, a, b, c] ∧ CommonFaults (.mult a b c) ∧
    ∀ s d u v, destOf a = some d → valOf s b = some u → valOf s c = some v → s.pc.toNat < 32768 →
      ∃ t, exec (.mult a b c) s = .next t ∧ (t.readReg d).toNat = (u.toNat * v.toNat) % 32768 ∧
        t.pc.toNat = s.pc.toNat + 4 ∧ Frame [.reg d, .pc] s t

/-- R92 (decision D6). MOD writes the remainder; a zero divisor takes DivisionByZero. With the data invariant the
remainder needs no reduction. Not the source's: the opcode number (D1, log 1) and the common faults (D3, D4, D8, D29,
log 14). -/
def Obligations.ModTakesRemainder : Prop :=
  ∀ a b c, encode defaultOpcodes (.mod a b c) = [11, a, b, c] ∧ CommonFaults (.mod a b c) ∧
    ∀ s d u v, destOf a = some d → valOf s b = some u → valOf s c = some v →
      (v.toNat = 0 → exec (.mod a b c) s = .next (s.faultedWith .divisionByZero (.mod a b c))) ∧
      (v.toNat ≠ 0 → s.pc.toNat < 32768 →
        ∃ t, exec (.mod a b c) s = .next t ∧ (t.readReg d).toNat = u.toNat % v.toNat % 32768 ∧
          (DataInv s → (t.readReg d).toNat = u.toNat % v.toNat ∧ (t.readReg d).toNat < v.toNat) ∧
          t.pc.toNat = s.pc.toNat + 4 ∧ Frame [.reg d, .pc] s t)

/-- R93. AND: each of the low 15 bits of the result is the conjunction of the operands' bits, and bit 15 is 0. Not the
source's: the opcode number (D1, log 1) and the common faults (D3, D4, D8, D29, log 14). -/
def Obligations.AndIsBitwise : Prop :=
  ∀ a b c, encode defaultOpcodes (.and a b c) = [12, a, b, c] ∧ CommonFaults (.and a b c) ∧
    ∀ s d u v, destOf a = some d → valOf s b = some u → valOf s c = some v → s.pc.toNat < 32768 →
      ∃ t, exec (.and a b c) s = .next t ∧
        (∀ n, (t.readReg d).getLsbD n = (decide (n < 15) && (u.getLsbD n && v.getLsbD n))) ∧
        t.pc.toNat = s.pc.toNat + 4 ∧ Frame [.reg d, .pc] s t

/-- R94. OR: each of the low 15 bits of the result is the disjunction of the operands' bits, and bit 15 is 0. Not the
source's: the opcode number (D1, log 1) and the common faults (D3, D4, D8, D29, log 14). -/
def Obligations.OrIsBitwise : Prop :=
  ∀ a b c, encode defaultOpcodes (.or a b c) = [13, a, b, c] ∧ CommonFaults (.or a b c) ∧
    ∀ s d u v, destOf a = some d → valOf s b = some u → valOf s c = some v → s.pc.toNat < 32768 →
      ∃ t, exec (.or a b c) s = .next t ∧
        (∀ n, (t.readReg d).getLsbD n = (decide (n < 15) && (u.getLsbD n || v.getLsbD n))) ∧
        t.pc.toNat = s.pc.toNat + 4 ∧ Frame [.reg d, .pc] s t

/-- R95 (the bits for a value from 32768 on are log 9). NOT: each of the low 15 bits of the result is the complement of
the operand's bit, and bit 15 is 0; of a value below 32768 the result is `32767 - v`, and a second NOT of it gives the
value back. Not the source's: the opcode number (D1, log 1) and the common faults (D3, D4, D8, D29, log 14). -/
def Obligations.NotComplementsFifteenBits : Prop :=
  ∀ a b, encode defaultOpcodes (.not a b) = [14, a, b] ∧ CommonFaults (.not a b) ∧
    ∀ s d v, destOf a = some d → valOf s b = some v → s.pc.toNat < 32768 →
      ∃ t, exec (.not a b) s = .next t ∧
        (∀ n, (t.readReg d).getLsbD n = (decide (n < 15) && !v.getLsbD n)) ∧
        (v.toNat < 32768 → (t.readReg d).toNat = 32767 - v.toNat ∧
          ∃ t', exec (.not a (registerWord d)) t = .next t' ∧ t'.readReg d = v) ∧
        t.pc.toNat = s.pc.toNat + 3 ∧ Frame [.reg d, .pc] s t

/-! ### Input/output instructions -/

/-- R96 (decisions D14, D16). OUT appends its value with the current skip-delay flag to the output, and does not change
the flag. Not the source's: the opcode number (D1, log 1) and the common faults (D3, D8, D29, log 14). -/
def Obligations.OutEmitsValueAndSkip : Prop :=
  ∀ a, encode defaultOpcodes (.out a) = [19, a] ∧ CommonFaults (.out a) ∧
    ∀ s c, valOf s a = some c → s.pc.toNat < 32768 →
      ∃ t, exec (.out a) s = .next t ∧ t.out = s.out ++ [⟨c, s.skip⟩] ∧ (DataInv s → c.toNat < 32768) ∧
        t.pc.toNat = s.pc.toNat + 2 ∧ Frame [.out, .pc] s t

/-- R97 (decisions D8, D13, D14). IN takes the oldest code, reduced mod 32768, into its destination; with an empty
buffer it suspends: `status` and `skip` change and nothing else. Not the source's: the opcode number (D1, log 1) and the
common faults (D3, D4, D8, D29, log 14). -/
def Obligations.InTakesCodeOrSuspends : Prop :=
  ∀ a, encode defaultOpcodes (.inp a) = [20, a] ∧ CommonFaults (.inp a) ∧
    ∀ s d, destOf a = some d →
      (s.inbuf = [] → ∃ t, exec (.inp a) s = .next t ∧ t.status = .awaitingInput ∧ t.skip = false ∧
        Frame [.status, .skip] s t) ∧
      (∀ k rest, s.inbuf = k :: rest → s.pc.toNat < 32768 →
        ∃ t, exec (.inp a) s = .next t ∧ (t.readReg d).toNat = k.toNat % 32768 ∧ t.inbuf = rest ∧
          t.pc.toNat = s.pc.toNat + 2 ∧ Frame [.reg d, .inbuf, .pc] s t)

/-! ### Encoding -/

/-- Words written out from R50, R53 and R57 under the default map (decision D1) decode to the instructions they stand
for. -/
def Obligations.WrittenWordsDecode : Prop :=
  decode defaultOpcodes [0] = .ok (.halt, []) ∧
  decode defaultOpcodes [9, 32770, 32768, 32769] = .ok (.add (registerWord 2) (registerWord 0) (registerWord 1), []) ∧
  decode defaultOpcodes [1, 3, 9, 21] = .ok (.set 3 9, [21]) ∧
  decode defaultOpcodes [16, 100, 32768] = .ok (.wmem 100 (registerWord 0), []) ∧
  decode defaultOpcodes [20, 32768] = .ok (.inp (registerWord 0), []) ∧
  decode defaultOpcodes [22, 0, 0, 0] = .error (.unknownOpcode 22) ∧
  decode defaultOpcodes [9, 32768, 1] = .error (.missingOperand 9 3)

/-- Decoding inverts encoding, for every instruction, every operand word, every opcode map that R5 admits, whatever
words follow (R46, R51), if the map's number for the instruction is below 32768; a number of 32768 or more is unknown as
an opcode word (D24, R45, log 17). -/
def Obligations.DecodeInvertsEncode : Prop :=
  ∀ m : OpcodeMap, m.Injective → ∀ (i : Instr) (rest : List Word),
    ((m.number i.opcode).toNat < 32768 → decode m (encode m i ++ rest) = .ok (i, rest)) ∧
    (32768 ≤ (m.number i.opcode).toNat →
      decode m (encode m i ++ rest) = .error (.unknownOpcode (m.number i.opcode)))

/-- R46: an instruction is its opcode word and then as many whole operand words as its opcode has operands, 0 to 3, in
consecutive words of memory from `pc` on; and no bit of the words decoded is lost, whatever the opcode map. The second
clause lists the arities of R48's formats. -/
def Obligations.EncodeInvertsDecode : Prop :=
  (∀ (m : OpcodeMap) (ws : List Word) (i : Instr) (rest : List Word), decode m ws = .ok (i, rest) →
    encode m i ++ rest = ws ∧ ws = m.number i.opcode :: (i.operands ++ rest) ∧ i.operands.length = i.opcode.arity) ∧
  (∀ o : Opcode,
    (o.arity = 0 ↔ o ∈ [Opcode.halt, .ret, .nop]) ∧
    (o.arity = 1 ↔ o ∈ [Opcode.push, .pop, .jmp, .call, .out, .inp]) ∧
    (o.arity = 2 ↔ o ∈ [Opcode.set, .jt, .jf, .not, .rmem, .wmem]) ∧
    (o.arity = 3 ↔ o ∈ [Opcode.eq, .gt, .add, .mult, .mod, .and, .or])) ∧
  ∀ (s : State) (i : Instr) (rest : List Word), decode s.params.opcodes s.window = .ok (i, rest) →
    s.pc.toNat < 32768 ∧ Memory.read s.mem s.pc.toNat = s.params.opcodes.number i.opcode ∧
    ∀ n w, i.operands[n]? = some w →
      s.pc.toNat + (n + 1) < 32768 ∧ Memory.read s.mem (s.pc.toNat + (n + 1)) = w

/-- R51 and R55 under the default map (decision D1): the instruction is the one numbered `op`, and exactly the words
from 22 on are no instruction's. -/
def Obligations.DefaultMapIsRowIndex : Prop :=
  ∀ w : Word, (∀ o, defaultOpcodes.find w = some o ↔ w.toNat = o.row.val) ∧
    (defaultOpcodes.find w = none ↔ 22 ≤ w.toNat)

/-! ### The cycle -/

/-- R60 (decisions D8, D15): in `Running`, where the words at `pc` decode to an instruction, the step is that
instruction's execution; there is nothing around it, for the instruction itself moves `pc`. -/
def Obligations.StepRunsDecodedInstr : Prop :=
  ∀ s i rest, s.status = .running → decode s.params.opcodes s.window = .ok (i, rest) → step s = exec i s

/-- The model's reading of R59 (log 5): in any other status the step runs no instruction and changes nothing. -/
def Obligations.StepIsIdleUnlessRunning : Prop :=
  ∀ s, s.status ≠ .running → step s = .next s

/-- R61, R63 (decisions D3, D8): a fetch reads the word at its address below 32768 and does not wrap; an opcode fetch at
`pc` from 32768 on, or the fetch of any operand word of the opcode at `pc` from 32768 on, whatever the other operand
words are, ends the step with FetchOutOfRange, its address and position in the record, and nothing else changed. -/
def Obligations.FetchOutOfRangeFaults : Prop :=
  (∀ m addr, (addr < 32768 → fetch m addr = some (Memory.read m addr)) ∧ (32768 ≤ addr → fetch m addr = none)) ∧
  ∀ s, s.status = .running →
    (32768 ≤ s.pc.toNat →
      step s = .next (s.faultedBy (.fetchOutOfRange none s.pc.toNat) none)) ∧
    (∀ o i, s.pc.toNat < 32768 → s.params.opcodes.find (Memory.read s.mem s.pc.toNat) = some o →
      1 ≤ i → i ≤ o.arity → s.pc.toNat + i = 32768 →
      step s = .next (s.faultedBy (.fetchOutOfRange (some i) 32768) (some (Memory.read s.mem s.pc.toNat))))

/-- R104, with the record of R26 (decision D29): an opcode word that is no instruction's number, and every opcode word
of 32768 or more whatever the map (D24, R45, log 17), takes UnknownOpcode, with the word and its address in the record.
-/
def Obligations.UnknownOpcodeFaults : Prop :=
  ∀ s, s.status = .running → s.pc.toNat < 32768 →
    (∀ o, s.params.opcodes.number o ≠ Memory.read s.mem s.pc.toNat) ∨
      32768 ≤ (Memory.read s.mem s.pc.toNat).toNat →
    step s = .next (s.faultedBy .unknownOpcode (some (Memory.read s.mem s.pc.toNat)))

/-- R64: `Val` of a literal is the literal, of a register reference the register's contents, of any other word nothing;
and in a state whose register values are below 32768 so is every resolved value. -/
def Obligations.ValResolvesOperands : Prop :=
  ∀ (s : State) (w : Word),
    (w.toNat < 32768 → valOf s w = some w) ∧
    (∀ r : Fin 8, w.toNat = 32768 + r.val → valOf s w = some (s.readReg r)) ∧
    (32776 ≤ w.toNat → valOf s w = none) ∧
    ((∀ r, (s.readReg r).toNat < 32768) → ∀ v, valOf s w = some v → v.toNat < 32768)

/-- R65 (decision D4): `Dest` gives register `w mod 32768` where that is below 8 and nothing otherwise. -/
def Obligations.DestResolvesRegisters : Prop :=
  ∀ w : Word,
    (∀ d : Fin 8, destOf w = some d ↔ w.toNat % 32768 = d.val) ∧
    (destOf w = none ↔ 8 ≤ w.toNat % 32768)

/-- R66 (decision D8): the operand at the lowest position that fails gives the fault, for every instruction, whatever
the instruction would have done with it. Positions are counted from 1 in the record, from 0 in the lists. -/
def Obligations.LowestInvalidOperandFaults : Prop :=
  ∀ (i : Instr) (s : State) (n : Nat) (w : Word) (k : OperandKind),
    i.operands[n]? = some w → i.opcode.kinds[n]? = some k → k.wordValid w = false →
    (∀ n' w' k', n' < n → i.operands[n']? = some w' → i.opcode.kinds[n']? = some k' → k'.wordValid w' = true) →
    exec i s = .next (s.faultedWith (.invalidOperand (n + 1) (s.pc.toNat + (n + 1)) w) i)

/-- R67: a register write stores the value mod 32768 and touches no other register; whichever instruction changes a
register leaves a value below 32768 in it; and where register values are below 32768, the number each of the 12
instructions of R15 leaves: RMEM its word, IN its code (decision D13), POP its entry (decision D28), ADD the sum and
MULT the product, each mod 32768, while SET, EQ, GT, MOD (divisor not zero, decision D6), AND, OR and NOT leave their
exact result. -/
def Obligations.RegisterWritesReduce : Prop :=
  (∀ (s : State) (d : Fin 8) (v : Nat), ((s.writeReg d v).readReg d).toNat = v % 32768 ∧
    ∀ r, r ≠ d → (s.writeReg d v).readReg r = s.readReg r) ∧
  (∀ i s t r, exec i s = .next t → t.readReg r ≠ s.readReg r → (t.readReg r).toNat < 32768) ∧
  ∀ s a b c d u v, (∀ r, (s.readReg r).toNat < 32768) →
    destOf a = some d → valOf s b = some u → valOf s c = some v →
    Writes (.rmem a b) s d ((Memory.read s.mem u.toNat).toNat % 32768) ∧
    (∀ k rest, s.inbuf = k :: rest → Writes (.inp a) s d (k.toNat % 32768)) ∧
    (∀ e rest, s.stack = e :: rest → Writes (.pop a) s d (e.toNat % 32768)) ∧
    Writes (.add a b c) s d ((u.toNat + v.toNat) % 32768) ∧
    Writes (.mult a b c) s d ((u.toNat * v.toNat) % 32768) ∧
    Writes (.set a b) s d u.toNat ∧
    Writes (.eq a b c) s d (if u = v then 1 else 0) ∧
    Writes (.gt a b c) s d (if v.toNat < u.toNat then 1 else 0) ∧
    (v.toNat ≠ 0 → Writes (.mod a b c) s d (u.toNat % v.toNat)) ∧
    Writes (.and a b c) s d (u.toNat &&& v.toNat) ∧
    Writes (.or a b c) s d (u.toNat ||| v.toNat) ∧
    Writes (.not a b) s d (32767 - u.toNat)

/-- R15: of all instructions only those of the 12 mnemonics named change a register, and only the one that their first
operand names through `Dest`, so never two; and each of the 12 does so, with every word that names a register. -/
def Obligations.OnlyTwelveInstrsWriteRegisters : Prop :=
  (∀ i s t r, exec i s = .next t → t.readReg r ≠ s.readReg r →
    i.opcode ∈ [Opcode.set, .pop, .eq, .gt, .add, .mult, .mod, .and, .or, .not, .rmem, .inp] ∧
      ∃ w, i.operands.head? = some w ∧ destOf w = some r) ∧
  ∀ o w r, o ∈ [Opcode.set, .pop, .eq, .gt, .add, .mult, .mod, .and, .or, .not, .rmem, .inp] →
    destOf w = some r →
    ∃ i s t, i.opcode = o ∧ i.operands.head? = some w ∧ exec i s = .next t ∧ t.readReg r ≠ s.readReg r

/-- R75 with R25 and R35: an instruction writes at most one register, pushes or pops at most one entry, emits or takes
at most one character, and only WMEM writes memory, only the word at the value of its first operand. -/
def Obligations.AtMostOneEffectOfEachKind : Prop :=
  ∀ i s t, DataInv s → exec i s = .next t →
    (∀ r r', t.readReg r ≠ s.readReg r → t.readReg r' ≠ s.readReg r' → r = r') ∧
    (t.stack = s.stack ∨ (∃ v, t.stack = v :: s.stack) ∨ (∃ v, s.stack = v :: t.stack)) ∧
    (∀ x, Memory.byteAt t.mem x ≠ Memory.byteAt s.mem x →
      ∃ a b addr, i = .wmem a b ∧ valOf s a = some addr ∧ x / 2 = addr.toNat) ∧
    ((t.out = s.out ∧ t.inbuf = s.inbuf) ∨ (t.inbuf = s.inbuf ∧ ∃ e, t.out = s.out ++ [e]) ∨
      (t.out = s.out ∧ ∃ c, s.inbuf = c :: t.inbuf))

/-- R69 (decision D11): of a running engine, an instruction that goes on and is no jump, call or return moves `pc` by
its length; one that jumps sets it to a resolved operand or the popped entry; one that halts, faults or suspends leaves
it. -/
def Obligations.PcMovesByLengthOrJump : Prop :=
  ∀ i s t, s.status = .running → s.pc.toNat < 32768 → exec i s = .next t →
    (t.status ≠ .running → t.pc = s.pc) ∧
    (t.status = .running → i.opcode ∉ [Opcode.jmp, .jt, .jf, .call, .ret] → t.pc.toNat = s.pc.toNat + i.opcode.length) ∧
    (t.status = .running → i.opcode ∈ [Opcode.jt, .jf] → t.pc.toNat = s.pc.toNat + i.opcode.length ∨
      ∃ w, i.operands[1]? = some w ∧ valOf s w = some t.pc) ∧
    (t.status = .running → i.opcode ∈ [Opcode.jmp, .call] → ∃ w, i.operands[0]? = some w ∧ valOf s w = some t.pc) ∧
    (t.status = .running → i.opcode = .ret → s.stack.head? = some t.pc)

/-- R68 (decision D9): a step that faults changes nothing but `status` and the fault record, one that halts nothing but
`status`, one that suspends nothing but `status` and `skip`. -/
def Obligations.StepsAreAtomic : Prop :=
  ∀ s t, s.status = .running → step s = .next t →
    (∀ info, t.status = .faulted info → t = { s with status := .faulted info }) ∧
    (∀ r, t.status = .halted r → t = { s with status := .halted r }) ∧
    (t.status = .awaitingInput → t = { s with status := .awaitingInput, skip := false })

/-- R70 (decision D10): the four outcomes of a step and what causes each of those that end the run. -/
def Obligations.FourOutcomesOfAStep : Prop :=
  ∀ s t, s.status = .running → step s = .next t →
    t.status = .running ∨
    (t.status = .halted .halt ∧ ∃ rest, decode s.params.opcodes s.window = .ok (.halt, rest)) ∨
    (t.status = .halted .retEmpty ∧ s.stack = [] ∧ ∃ rest, decode s.params.opcodes s.window = .ok (.ret, rest)) ∨
    (∃ info, t.status = .faulted info) ∨
    (t.status = .awaitingInput ∧ s.inbuf = [] ∧ ∃ a rest, decode s.params.opcodes s.window = .ok (.inp a, rest))

/-- R99, R106, with R109 (decisions D3 to D7, D21, D29): the codes of the six kinds; and of a running engine an
instruction takes InvalidOperand exactly if it is not well formed, EmptyStackPop, DivisionByZero and StackOverflow only
for its own cause and only if it is well formed, and never a fault of the fetch. -/
def Obligations.FaultKindsAndTheirCauses : Prop :=
  ([FaultKind.invalidOperand, .unknownOpcode, .emptyStackPop, .divisionByZero, .fetchOutOfRange, .stackOverflow].map
    FaultKind.code = [1, 2, 3, 4, 5, 6]) ∧
  ∀ i s t info, s.status = .running → exec i s = .next t → t.status = .faulted info →
    info.at_ = s.pc ∧ info.op = some (s.params.opcodes.number i.opcode) ∧
    (info.cause.kind = .invalidOperand ↔ ¬ i.WellFormed) ∧
    (info.cause.kind = .emptyStackPop → (∃ a, i = .pop a) ∧ s.stack = []) ∧
    (info.cause.kind = .divisionByZero → ∃ a b c, i = .mod a b c ∧ valOf s c = some 0) ∧
    (info.cause.kind = .stackOverflow →
      ((∃ a, i = .push a) ∨ ∃ a, i = .call a) ∧ s.params.stackMax = .atMost s.stack.length) ∧
    info.cause.kind ≠ .unknownOpcode ∧ info.cause.kind ≠ .fetchOutOfRange

/-- R100, R101, R116 (decisions D9, D10, and log 5 for the step): `Halted` and `Faulted` are final: no step and no host
action leaves them, changes a register, memory, the stack, `pc`, `skip` or the output. -/
def Obligations.FinalStatusesAreFinal : Prop :=
  ∀ s, ((∃ r, s.status = .halted r) ∨ ∃ info, s.status = .faulted info) →
    step s = .next s ∧ ∀ a, Frame [.inbuf] s (hostAct a s).1

/-! ### Invariants -/

/-- R14, R17, R19 (decisions D3, D7, D28), memory's canonical form (log 2) and what the model's own fields `params` and
`out` hold (logs 1, 4): every step of every state keeps them, the idle step (log 5) included. -/
def Obligations.StepKeepsDataInv : Prop :=
  ∀ s t, DataInv s → step s = .next t → DataInv t

/-- R23, R28, R101, R26 (decisions D10, D11, D29): every step keeps what `status` says about the rest of the state, the
idle step (log 5) included. -/
def Obligations.StepKeepsControlInv : Prop :=
  ∀ s t, ControlInv s → step s = .next t → ControlInv t

/-- Every host action, cut from its steps as log 7 says, keeps both invariants (R110, decisions D10, D12 to D14). -/
def Obligations.HostActionsKeepInvariants : Prop :=
  ∀ s a, (DataInv s → DataInv (hostAct a s).1) ∧ (ControlInv s → ControlInv (hostAct a s).1)

/-- The reset state (R30, decisions D2, D10, D13, D14; its parameters log 1) meets both invariants. -/
def Obligations.ResetMeetsInvariants : Prop :=
  DataInv State.reset ∧ ControlInv State.reset

/-- Nothing that a run can do stops the model: with the data invariant every step answers a next state (R36 with R72;
the stop is log 6, the idle step log 5). -/
def Obligations.StepAlwaysAnswersNext : Prop :=
  ∀ s, DataInv s → ∃ t, step s = .next t

/-- Every state that a CORE reaches from any image (R122), by steps and host actions in any order (R110, logs 7, 8),
meets both invariants (R14, R17, R19, R23, R26, R28), and its step answers a next state (R36 with R72; the stop is log
6, the idle step of the four statuses other than `Running` log 5). -/
def Obligations.ReachableStatesAreSound : Prop :=
  ∀ p s, p.Valid → Reachable p s → DataInv s ∧ ControlInv s ∧ s.params = p ∧ ∃ t, step s = .next t

/-! ### Memory, reset and loading -/

/-- R34, R35, over memory in the canonical form of log 2: reading the word just written gives it, every other word is as
before, and the canonical form is kept. -/
def Obligations.MemoryReadsLastWrite : Prop :=
  ∀ m addr v, Memory.wf m = true → addr < 32768 →
    Memory.read (Memory.write m addr v) addr = v ∧
    (∀ addr', addr' ≠ addr → Memory.read (Memory.write m addr v) addr' = Memory.read m addr') ∧
    Memory.wf (Memory.write m addr v) = true

/-- Two memories in canonical form whose words all agree are the same data (the model's form of R33, log 2). -/
def Obligations.EqualWordsMeanEqualMemory : Prop :=
  ∀ m m', Memory.wf m = true → Memory.wf m' = true →
    (∀ addr, addr < 32768 → Memory.read m addr = Memory.read m' addr) → m = m'

/-- R44 (decision D8): a store is seen by every later fetch of its address, the very next one included, and not by the
storing instruction, whose words are those memory held before. -/
def Obligations.StoreIsSeenByNextFetch : Prop :=
  ∀ s a b addr v rest, DataInv s → s.status = .running →
    decode s.params.opcodes s.window = .ok (.wmem a b, rest) → valOf s a = some addr → valOf s b = some v →
    ∃ t, step s = .next t ∧ fetch t.mem addr.toNat = some v ∧
      (∀ x, x ≠ addr.toNat → fetch t.mem x = fetch s.mem x) ∧
      (t.pc = addr → t.window.head? = some v)

/-- R45: a word of 32768 or more in memory was there before, for no step (an idle one, log 5, included) and no host
action (log 8) makes one; as an opcode it is unknown whatever the map (D24, log 17); as an operand word of kind V it is
a register reference or invalid; and RMEM writes it reduced mod 32768. -/
def Obligations.HighWordsComeFromTheImage : Prop :=
  (∀ s t, DataInv s → step s = .next t → ∀ x, x < 32768 → 32768 ≤ (Memory.read t.mem x).toNat →
    Memory.read t.mem x = Memory.read s.mem x) ∧
  (∀ a s, (hostAct a s).1.mem = s.mem) ∧
  ∀ s x, x < 32768 → 32768 ≤ (Memory.read s.mem x).toNat →
    (s.status = .running → s.pc.toNat = x →
      step s = .next (s.faultedBy .unknownOpcode (some (Memory.read s.mem x)))) ∧
    ((∃ r : Fin 8, (Memory.read s.mem x).toNat = 32768 + r.val ∧
        valOf s (Memory.read s.mem x) = some (s.readReg r)) ∨
      (32776 ≤ (Memory.read s.mem x).toNat ∧ valOf s (Memory.read s.mem x) = none)) ∧
    ∀ a b d addr, destOf a = some d → valOf s b = some addr → addr.toNat = x →
      Writes (.rmem a b) s d ((Memory.read s.mem x).toNat % 32768)

/-- R32 (decision D17 for what is refused): the loader refuses an odd number of bytes and more than 32768 words;
otherwise word `i` is the little-endian pair of bytes `2i`, `2i + 1`, and every word beyond the image is 0. -/
def Obligations.LoaderReadsLittleEndianWords : Prop :=
  ∀ image : List Byte,
    (loadImage image = none ↔ image.length % 2 = 1 ∨ 32768 < image.length / 2) ∧
    ∀ m, loadImage image = some m →
      (∀ i lo hi, image[2 * i]? = some lo → image[2 * i + 1]? = some hi →
        (Memory.read m i).toNat = lo.toNat + 256 * hi.toNat) ∧
      (∀ i, image.length / 2 ≤ i → i < 32768 → Memory.read m i = 0)

/-- R122, with R30 (decisions D2, D10, D13, D14, D17, D29): reset gives a CORE exactly when the loader does not refuse
the image, and what it leaves then in every piece of state, and in the model's own fields `params` and `out` (logs 1,
4). -/
def Obligations.ResetGivesEveryValue : Prop :=
  ∀ p image,
    (bootImage p image = none ↔ loadImage image = none) ∧
    (∀ m, loadImage image = some m → ∃ s, bootImage p image = some s ∧ s.mem = m) ∧
    ∀ s, bootImage p image = some s →
      (∀ r, s.readReg r = 0) ∧ s.stack = [] ∧ loadImage image = some s.mem ∧ s.pc = 0 ∧ s.status = .ready ∧
        s.skip = false ∧ s.inbuf = [] ∧ s.faultRecord = none ∧ s.out = [] ∧ s.params = p

/-! ### The host, suspension and input -/

/-- R111 to R114 (decisions D12 to D14), the call cut from its steps: `start` acts in `Ready` only and `resume` in
`AwaitingInput` only, and elsewhere they change nothing and return what the rules say; `append` adds its codes to the
end of the buffer in any status; `signal` sets `skip` in `Running` and does nothing in any other status. That `start`
and `resume`, where they act, set `Running` and nothing else and reply `runs` is the model's choice (log 7): the rules
say that the call then runs steps and returns the final status, which is `HostCallHasOneResult`. -/
def Obligations.HostActionsActAsSaid : Prop :=
  ∀ s,
    (s.status = .ready → hostAct .start s = ({ s with status := .running }, .runs) ∧
      hostAct .resume s = (s, .notSuspended)) ∧
    (s.status = .running → hostAct .start s = (s, .notReady) ∧ hostAct .resume s = (s, .notSuspended)) ∧
    (s.status = .awaitingInput → hostAct .start s = (s, .notReady) ∧
      hostAct .resume s = ({ s with status := .running }, .runs)) ∧
    (((∃ r, s.status = .halted r) ∨ ∃ info, s.status = .faulted info) →
      hostAct .start s = (s, .unchanged s.status) ∧ hostAct .resume s = (s, .unchanged s.status)) ∧
    (∀ codes, hostAct (.append codes) s = ({ s with inbuf := s.inbuf ++ codes }, .nothing)) ∧
    (s.status = .running → hostAct .signal s = ({ s with skip := true }, .nothing)) ∧
    (s.status ≠ .running → hostAct .signal s = (s, .nothing))

/-- R98 (decisions D12 to D14; the resume cut from its steps, log 7): suspension loses nothing and repeats nothing. An
IN that suspends, then an append and a resume, give exactly the state of before the IN with the codes in the buffer and
`skip` clear; and the next step runs that IN whole. -/
def Obligations.SuspensionIsExact : Prop :=
  ∀ s t k codes, s.status = .running → step s = .next t → t.status = .awaitingInput →
    (hostAct .resume (hostAct (.append (k :: codes)) t).1).1 = { s with inbuf := k :: codes, skip := false } ∧
    ∃ a d u, destOf a = some d ∧ decode s.params.opcodes s.window = .ok (.inp a, s.window.drop 2) ∧
      step (hostAct .resume (hostAct (.append (k :: codes)) t).1).1 = .next u ∧
      (u.readReg d).toNat = k.toNat % 32768 ∧ u.inbuf = codes ∧ u.status = .running ∧
      u.pc.toNat = s.pc.toNat + 2 ∧ Frame [.reg d, .inbuf, .pc, .skip] s u

/-- R112 and R118 (decision D12; the resume cut from its steps, log 7): a resume with the buffer still empty suspends
again at once, in the very same state. -/
def Obligations.ResumeWithoutInputSuspendsAgain : Prop :=
  ∀ s, ControlInv s → s.status = .awaitingInput → s.inbuf = [] →
    step (hostAct .resume s).1 = .next s

/-- R22 (decision D14; the output field is log 4, the idle step log 5): the skip-delay flag changes nothing but itself
and its copies in the output: two states that differ only there stay so, step for step. -/
def Obligations.SkipFlagDoesNotInterfere : Prop :=
  ∀ s s' t, s.eraseSkip = s'.eraseSkip → step s = .next t →
    ∃ t', step s' = .next t' ∧ t.eraseSkip = t'.eraseSkip

/-- R108 (decisions D13, D19; the append between two steps, log 8): new input does not disturb a running program: a step
that does not suspend does the same with more input behind it, and leaves that input behind. -/
def Obligations.AppendedInputWaitsItsTurn : Prop :=
  ∀ s t codes, s.status = .running → step s = .next t → t.status ≠ .awaitingInput →
    step (hostAct (.append codes) s).1 = .next (hostAct (.append codes) t).1

/-- R71, R102 (decision D10), for a call cut from its `start` or `resume` (log 7). A call that no host action disturbs
(log 8) returns in one state at most, however many idle steps (log 5) are counted after its end, and that end is one
that the call's own steps reach in `Running`; and a call between whose steps the host acts in any way (R59, R130) is
still running or has one of the ends of R102: a halt, a suspension or a fault. -/
def Obligations.HostCallHasOneResult : Prop :=
  (∀ s t u, s.status = .running → CallReturns s t → CallReturns s u →
    t = u ∧ CallGoesOn s t ∧
      ((∃ r, t.status = .halted r) ∨ t.status = .awaitingInput ∨ ∃ info, t.status = .faulted info)) ∧
  ∀ s t, s.status = .running → CallGoesOn s t →
    t.status = .running ∨ (∃ r, t.status = .halted r) ∨ t.status = .awaitingInput ∨ ∃ info, t.status = .faulted info

/-- The model's own stop (log 6): RMEM and WMEM stop on an address of 32768 or more, which only a register value outside
R14 gives. -/
def Obligations.DataAddressOutsideMemoryStops : Prop :=
  ∀ s a b addr, valOf s b = some addr → 32768 ≤ addr.toNat →
    (∀ d, destOf a = some d → exec (.rmem a b) s = .fault (.addressOutsideMemory addr.toNat)) ∧
    (∀ v, valOf s a = some v → exec (.wmem b a) s = .fault (.addressOutsideMemory addr.toNat)) ∧
    ¬ DataInv s
end

