-- ==== Sys2Proof/Laws/Decode.lean ====
section
/-! SUPPORT. The opcode map, what the decoder answers, and the words the fetch gives it. -/

namespace Sys2Proof

theorem Opcode.mem_all (o : Opcode) : o ∈ Opcode.all := by
  cases o <;> decide

theorem Opcode.row_injective {o o' : Opcode} (h : o.row = o'.row) : o = o' := by
  revert h
  cases o <;> cases o' <;> decide

theorem defaultOpcodes_injective : defaultOpcodes.Injective := by decide

/-- An opcode word of 32768 or more is unknown, whatever the map (D24, R45). -/
theorem OpcodeMap.find_high (m : OpcodeMap) {w : Word} (h : 32768 ≤ w.toNat) : m.find w = none := by
  simp [OpcodeMap.find, Nat.not_lt.mpr h]

/-- Below 32768 the table is searched. -/
theorem OpcodeMap.find_low (m : OpcodeMap) {w : Word} (h : w.toNat < 32768) :
    m.find w = Opcode.all.find? fun o => m.number o == w := by
  simp [OpcodeMap.find, h]

/-- A word found is below 32768. -/
theorem OpcodeMap.low_of_find {m : OpcodeMap} {w : Word} {o : Opcode} (h : m.find w = some o) : w.toNat < 32768 := by
  by_contra hw
  rw [m.find_high (by omega)] at h
  cases h

/-- A number found belongs to the mnemonic found. -/
theorem OpcodeMap.number_of_find {m : OpcodeMap} {w : Word} {o : Opcode} (h : m.find w = some o) : m.number o = w := by
  rw [m.find_low (OpcodeMap.low_of_find h)] at h
  simpa using List.find?_some h

/-- An injective map gives two mnemonics two numbers. -/
theorem OpcodeMap.number_injective {m : OpcodeMap} (hm : m.Injective) {o o' : Opcode}
    (h : m.number o = m.number o') : o = o' := by
  apply Opcode.row_injective
  have := (List.Nodup.getElem_inj_iff hm (i := o.row.val) (j := o'.row.val)
    (hi := by simp) (hj := by simp)).mp (by simpa [OpcodeMap.number] using h)
  exact Fin.ext this

/-- Under an injective map the number of a mnemonic, if it is below 32768, finds that mnemonic. -/
theorem OpcodeMap.find_number {m : OpcodeMap} (hm : m.Injective) (o : Opcode) (h : (m.number o).toNat < 32768) :
    m.find (m.number o) = some o := by
  cases h' : m.find (m.number o) with
  | none =>
    rw [m.find_low h] at h'
    have := List.find?_eq_none.mp h' o (Opcode.mem_all o)
    simp at this
  | some o' => rw [OpcodeMap.number_injective hm (OpcodeMap.number_of_find h')]

/-- A word finds nothing exactly when it is no mnemonic's number, or 32768 or more. -/
theorem OpcodeMap.find_eq_none_iff {m : OpcodeMap} {w : Word} :
    m.find w = none ↔ (∀ o, m.number o ≠ w) ∨ 32768 ≤ w.toNat := by
  by_cases h : w.toNat < 32768
  · rw [m.find_low h, List.find?_eq_none]
    exact ⟨fun h' => .inl fun o => by simpa using h' o (Opcode.mem_all o),
      fun h' o _ => by simpa using h'.resolve_right (by omega) o⟩
  · exact ⟨fun _ => .inr (by omega), fun _ => m.find_high (by omega)⟩

theorem defaultOpcodes_low (o : Opcode) : (defaultOpcodes.number o).toNat < 32768 := by
  cases o <;> decide

theorem Opcode.opcode_toInstr (o : Opcode) (w₁ w₂ w₃ : Word) : (o.toInstr w₁ w₂ w₃).opcode = o := by
  cases o <;> rfl

/-- The operands of the instruction built from a mnemonic are the words given, as many as its arity. -/
theorem Opcode.operands_toInstr (o : Opcode) (w₁ w₂ w₃ : Word) :
    (o.toInstr w₁ w₂ w₃).operands = [w₁, w₂, w₃].take o.arity := by
  cases o <;> rfl

/-- What the decoder answers, case by case (R60 actions 1 to 3). -/
theorem decode_cases (m : OpcodeMap) (ws : List Word) :
    (ws = [] ∧ decode m ws = .error .noOpcode) ∨
    (∃ w rest, ws = w :: rest ∧ m.find w = none ∧ decode m ws = .error (.unknownOpcode w)) ∨
    (∃ w rest o, ws = w :: rest ∧ m.find w = some o ∧ rest.length < o.arity ∧
      decode m ws = .error (.missingOperand w (rest.length + 1))) ∨
    (∃ w rest o, ws = w :: rest ∧ m.find w = some o ∧ o.arity ≤ rest.length ∧
      decode m ws = .ok (o.toInstr (rest.getD 0 0) (rest.getD 1 0) (rest.getD 2 0), rest.drop o.arity)) := by
  cases ws with
  | nil => exact .inl ⟨rfl, rfl⟩
  | cons w rest =>
    cases h : m.find w with
    | none => exact .inr (.inl ⟨w, rest, rfl, h, by simp [decode, h]⟩)
    | some o =>
      by_cases hl : rest.length < o.arity
      · exact .inr (.inr (.inl ⟨w, rest, o, rfl, h, hl, by simp [decode, h, hl]⟩))
      · exact .inr (.inr (.inr ⟨w, rest, o, rfl, h, by omega, by simp [decode, h, hl]⟩))

namespace Machine

theorem fetch_inRange {m : Memory} {addr : Nat} (h : addr < 32768) : fetch m addr = some (Memory.read m addr) := by
  simp [fetch, h]

theorem fetch_outOfRange {m : Memory} {addr : Nat} (h : 32768 ≤ addr) : fetch m addr = none := by
  simp [fetch, Nat.not_lt.mpr h]

/-- The words to decode depend on memory and `pc` alone. -/
theorem State.window_congr {s t : State} (hm : t.mem = s.mem) (hp : t.pc = s.pc) : t.window = s.window := by
  simp [State.window, hm, hp]

/-- There is no word to decode exactly where `pc` is outside memory. -/
theorem State.window_eq_nil_iff (s : State) : s.window = [] ↔ 32768 ≤ s.pc.toNat := by
  unfold State.window
  rw [List.filterMap_eq_nil_iff]
  constructor
  · intro h
    have := h s.pc.toNat (by simp)
    unfold fetch at this
    split at this
    · cases this
    · omega
  · intro h a ha
    simp only [List.mem_cons, List.not_mem_nil, or_false] at ha
    exact fetch_outOfRange (by omega)

/-- With `pc` in memory the window begins with the word there. -/
theorem State.window_cons (s : State) (h : s.pc.toNat < 32768) :
    s.window = Memory.read s.mem s.pc.toNat ::
      [s.pc.toNat + 1, s.pc.toNat + 2, s.pc.toNat + 3].filterMap (fetch s.mem) := by
  simp [State.window, fetch_inRange h]

/-- How many operand words there are after `pc`: three, or as many as memory has. -/
theorem State.window_length (s : State) (h : s.pc.toNat < 32768) :
    s.window.length = 1 + min 3 (32767 - s.pc.toNat) := by
  rw [State.window_cons s h]
  simp only [List.length_cons, List.filterMap_cons, List.filterMap_nil, fetch]
  split_ifs <;> simp <;> omega

end Machine
end Sys2Proof
end

