-- ==== Sys2Proof/Laws/Memory.lean ====
section
/-! SUPPORT. Memory: reading back a written byte, the canonical form, and words over bytes. -/

namespace Sys2Proof.Machine

/-! ### Bytes -/

theorem Memory.byteAt_below (m : Memory) (low a : Nat) (h : Memory.wfFrom low m = true) (ha : a < low) :
    Memory.byteAt m a = Memory.unlisted := by
  induction m generalizing low with
  | nil => rfl
  | cons c m ih =>
    obtain ⟨k, b⟩ := c
    simp only [Memory.wfFrom, Bool.and_eq_true, decide_eq_true_eq] at h
    obtain ⟨⟨⟨hk, -⟩, -⟩, hm⟩ := h
    rw [Memory.byteAt, if_neg (by omega)]
    exact ih (k + 1) hm (by omega)

theorem Memory.byteAt_consByte (m : Memory) (k : Nat) (b : Byte) (h : Memory.wfFrom (k + 1) m = true) (a : Nat) :
    Memory.byteAt (Memory.consByte k b m) a = if a = k then b else Memory.byteAt m a := by
  unfold Memory.consByte
  split
  · rename_i hb
    split
    · rename_i ha
      rw [ha, hb, Memory.byteAt_below m (k + 1) k h (by omega)]
    · rfl
  · rfl

theorem Memory.wfFrom_mono (m : Memory) (low low' : Nat) (h : Memory.wfFrom low m = true) (hl : low' ≤ low) :
    Memory.wfFrom low' m = true := by
  cases m with
  | nil => rfl
  | cons c m =>
    obtain ⟨k, b⟩ := c
    simp only [Memory.wfFrom, Bool.and_eq_true, decide_eq_true_eq] at h ⊢
    exact ⟨⟨⟨by omega, h.1.1.2⟩, h.1.2⟩, h.2⟩

theorem Memory.wfFrom_consByte (m : Memory) (low k : Nat) (b : Byte) (hk : low ≤ k) (hb : k < 65536)
    (h : Memory.wfFrom (k + 1) m = true) : Memory.wfFrom low (Memory.consByte k b m) = true := by
  unfold Memory.consByte
  split
  · exact Memory.wfFrom_mono m (k + 1) low h (by omega)
  · rename_i hne
    simp only [Memory.wfFrom, Bool.and_eq_true, decide_eq_true_eq]
    exact ⟨⟨⟨hk, hb⟩, hne⟩, h⟩

theorem Memory.wfFrom_setByte (m : Memory) (low a : Nat) (b : Byte) (h : Memory.wfFrom low m = true)
    (hl : low ≤ a) (ha : a < 65536) : Memory.wfFrom low (Memory.setByte m a b) = true := by
  induction m generalizing low with
  | nil => exact Memory.wfFrom_consByte [] low a b hl ha rfl
  | cons c m ih =>
    obtain ⟨k, c⟩ := c
    have h' := h
    simp only [Memory.wfFrom, Bool.and_eq_true, decide_eq_true_eq] at h'
    obtain ⟨⟨⟨hk, hk'⟩, hc⟩, hm⟩ := h'
    rw [Memory.setByte]
    split
    · apply Memory.wfFrom_consByte _ _ _ _ hl ha
      simp only [Memory.wfFrom, Bool.and_eq_true, decide_eq_true_eq]
      exact ⟨⟨⟨by omega, hk'⟩, hc⟩, hm⟩
    · split
      · rename_i hak
        exact Memory.wfFrom_consByte _ _ _ _ hl ha (hak ▸ hm)
      · simp only [Memory.wfFrom, Bool.and_eq_true, decide_eq_true_eq]
        exact ⟨⟨⟨hk, hk'⟩, hc⟩, ih (k + 1) hm (by omega)⟩

/-- Setting a byte keeps the canonical form. -/
theorem Memory.wf_setByte (m : Memory) (a : Nat) (b : Byte) (h : Memory.wf m = true) (ha : a < 65536) :
    Memory.wf (Memory.setByte m a b) = true :=
  Memory.wfFrom_setByte m 0 a b h (by omega) ha

theorem Memory.byteAt_setByte_from (m : Memory) (low a : Nat) (b : Byte) (h : Memory.wfFrom low m = true) (x : Nat) :
    Memory.byteAt (Memory.setByte m a b) x = if x = a then b else Memory.byteAt m x := by
  induction m generalizing low with
  | nil => exact Memory.byteAt_consByte [] a b rfl x
  | cons c m ih =>
    obtain ⟨k, c⟩ := c
    have h' := h
    simp only [Memory.wfFrom, Bool.and_eq_true, decide_eq_true_eq] at h'
    obtain ⟨⟨⟨hk, hk'⟩, hc⟩, hm⟩ := h'
    rw [Memory.setByte]
    split
    · apply Memory.byteAt_consByte
      simp only [Memory.wfFrom, Bool.and_eq_true, decide_eq_true_eq]
      exact ⟨⟨⟨by omega, hk'⟩, hc⟩, hm⟩
    · split
      · rename_i hak
        rw [Memory.byteAt_consByte _ _ _ (hak ▸ hm), Memory.byteAt]
        split
        · rfl
        · rename_i hx
          rw [if_neg (by omega)]
      · rw [Memory.byteAt, Memory.byteAt, ih (k + 1) hm]
        split
        · rw [if_neg (by omega)]
        · rfl

/-- Reading a byte of a memory in canonical form after one was set. -/
theorem Memory.byteAt_setByte (m : Memory) (a : Nat) (b : Byte) (h : Memory.wf m = true) (x : Nat) :
    Memory.byteAt (Memory.setByte m a b) x = if x = a then b else Memory.byteAt m x :=
  Memory.byteAt_setByte_from m 0 a b h x

/-! ### Words -/

theorem wordOfBytes_low_high (w : Word) : wordOfBytes (lowByte w) (highByte w) = w := by
  apply BitVec.eq_of_toNat_eq
  simp only [wordOfBytes, lowByte, highByte, BitVec.toNat_ofNat]
  have := w.isLt
  omega

/-- Writing a word keeps the canonical form. -/
theorem Memory.wf_write (m : Memory) (addr : Nat) (v : Word) (h : Memory.wf m = true) (ha : addr < 32768) :
    Memory.wf (Memory.write m addr v) = true :=
  Memory.wf_setByte _ _ _ (Memory.wf_setByte _ _ _ h (by omega)) (by omega)

/-- Every byte after a word was written. -/
theorem Memory.byteAt_write (m : Memory) (addr : Nat) (v : Word) (h : Memory.wf m = true) (ha : addr < 32768) (x : Nat) :
    Memory.byteAt (Memory.write m addr v) x =
      if x = 2 * addr + 1 then highByte v else if x = 2 * addr then lowByte v else Memory.byteAt m x := by
  rw [Memory.write, Memory.byteAt_setByte _ _ _ (Memory.wf_setByte _ _ _ h (by omega)), Memory.byteAt_setByte _ _ _ h]

/-! ### Placing words and images -/

/-- Placing words keeps the canonical form. -/
theorem Memory.wf_place (m : Memory) (a : Nat) (ws : List Word) (h : Memory.wf m = true) :
    Memory.wf (Memory.place m a ws) = true := by
  induction ws generalizing m a with
  | nil => exact h
  | cons w ws ih =>
    rw [Memory.place]
    apply ih
    split
    · rename_i ha
      exact Memory.wf_write m a w h ha
    · exact h

theorem wfFrom_imageCells (k : Nat) (bs : List Byte) (h : k + bs.length ≤ 65536) :
    Memory.wfFrom k (imageCells k bs) = true := by
  induction bs generalizing k with
  | nil => rfl
  | cons b bs ih =>
    rw [List.length_cons] at h
    exact Memory.wfFrom_consByte _ _ _ _ (Nat.le_refl k) (by omega) (ih (k + 1) (by omega))

/-- The byte at a key of an image's cells is the image's byte there, or zero beyond it. -/
theorem byteAt_imageCells (k : Nat) (bs : List Byte) (h : k + bs.length ≤ 65536) (x : Nat) :
    Memory.byteAt (imageCells k bs) (k + x) = bs.getD x 0 := by
  induction bs generalizing k x with
  | nil => rfl
  | cons b bs ih =>
    rw [List.length_cons] at h
    rw [imageCells, Memory.byteAt_consByte _ _ _ (wfFrom_imageCells (k + 1) bs (by omega))]
    cases x with
    | zero => simp
    | succ x =>
      rw [if_neg (by omega), show k + (x + 1) = k + 1 + x by omega, ih (k + 1) (by omega)]
      simp

/-- A loaded image is in canonical form. -/
theorem wf_loadImage (image : List Byte) (m : Memory) (h : loadImage image = some m) : Memory.wf m = true := by
  unfold loadImage at h
  split at h
  · cases h
    exact wfFrom_imageCells 0 image (by omega)
  · cases h

end Sys2Proof.Machine
end

