-- ==== Sys2Proof/Laws/State.lean ====
section
/-! SUPPORT. One lemma per field per named update, so that no proof unfolds a record update. -/

namespace Sys2Proof.Machine

variable (s : State)

@[simp] theorem State.writeReg_params (d : Fin 8) (v : Nat) : (s.writeReg d v).params = s.params := rfl
@[simp] theorem State.writeReg_regs (d : Fin 8) (v : Nat) : (s.writeReg d v).regs = s.regs.set d (BitVec.ofNat 16 (v % 32768)) := rfl
@[simp] theorem State.writeReg_pc (d : Fin 8) (v : Nat) : (s.writeReg d v).pc = s.pc := rfl
@[simp] theorem State.writeReg_stack (d : Fin 8) (v : Nat) : (s.writeReg d v).stack = s.stack := rfl
@[simp] theorem State.writeReg_mem (d : Fin 8) (v : Nat) : (s.writeReg d v).mem = s.mem := rfl
@[simp] theorem State.writeReg_status (d : Fin 8) (v : Nat) : (s.writeReg d v).status = s.status := rfl
@[simp] theorem State.writeReg_skip (d : Fin 8) (v : Nat) : (s.writeReg d v).skip = s.skip := rfl
@[simp] theorem State.writeReg_inbuf (d : Fin 8) (v : Nat) : (s.writeReg d v).inbuf = s.inbuf := rfl
@[simp] theorem State.writeReg_out (d : Fin 8) (v : Nat) : (s.writeReg d v).out = s.out := rfl

@[simp] theorem State.advance_params (n : Nat) : (s.advance n).params = s.params := rfl
@[simp] theorem State.advance_regs (n : Nat) : (s.advance n).regs = s.regs := rfl
@[simp] theorem State.advance_pc (n : Nat) : (s.advance n).pc = s.pcPlus n := rfl
@[simp] theorem State.advance_stack (n : Nat) : (s.advance n).stack = s.stack := rfl
@[simp] theorem State.advance_mem (n : Nat) : (s.advance n).mem = s.mem := rfl
@[simp] theorem State.advance_status (n : Nat) : (s.advance n).status = s.status := rfl
@[simp] theorem State.advance_skip (n : Nat) : (s.advance n).skip = s.skip := rfl
@[simp] theorem State.advance_inbuf (n : Nat) : (s.advance n).inbuf = s.inbuf := rfl
@[simp] theorem State.advance_out (n : Nat) : (s.advance n).out = s.out := rfl
@[simp] theorem State.advance_readReg (n : Nat) (r : Fin 8) : (s.advance n).readReg r = s.readReg r := rfl

@[simp] theorem State.jump_params (target : Word) : (s.jump target).params = s.params := rfl
@[simp] theorem State.jump_regs (target : Word) : (s.jump target).regs = s.regs := rfl
@[simp] theorem State.jump_pc (target : Word) : (s.jump target).pc = target := rfl
@[simp] theorem State.jump_stack (target : Word) : (s.jump target).stack = s.stack := rfl
@[simp] theorem State.jump_mem (target : Word) : (s.jump target).mem = s.mem := rfl
@[simp] theorem State.jump_status (target : Word) : (s.jump target).status = s.status := rfl
@[simp] theorem State.jump_skip (target : Word) : (s.jump target).skip = s.skip := rfl
@[simp] theorem State.jump_inbuf (target : Word) : (s.jump target).inbuf = s.inbuf := rfl
@[simp] theorem State.jump_out (target : Word) : (s.jump target).out = s.out := rfl
@[simp] theorem State.jump_readReg (target : Word) (r : Fin 8) : (s.jump target).readReg r = s.readReg r := rfl

@[simp] theorem State.emit_params (c : Word) : (s.emit c).params = s.params := rfl
@[simp] theorem State.emit_regs (c : Word) : (s.emit c).regs = s.regs := rfl
@[simp] theorem State.emit_pc (c : Word) : (s.emit c).pc = s.pc := rfl
@[simp] theorem State.emit_stack (c : Word) : (s.emit c).stack = s.stack := rfl
@[simp] theorem State.emit_mem (c : Word) : (s.emit c).mem = s.mem := rfl
@[simp] theorem State.emit_status (c : Word) : (s.emit c).status = s.status := rfl
@[simp] theorem State.emit_skip (c : Word) : (s.emit c).skip = s.skip := rfl
@[simp] theorem State.emit_inbuf (c : Word) : (s.emit c).inbuf = s.inbuf := rfl
@[simp] theorem State.emit_out (c : Word) : (s.emit c).out = s.out ++ [⟨c, s.skip⟩] := rfl
@[simp] theorem State.emit_readReg (c : Word) (r : Fin 8) : (s.emit c).readReg r = s.readReg r := rfl

@[simp] theorem State.raise_params (c : FaultCause) (op : Option Word) : (s.raise c op).params = s.params := rfl
@[simp] theorem State.raise_regs (c : FaultCause) (op : Option Word) : (s.raise c op).regs = s.regs := rfl
@[simp] theorem State.raise_pc (c : FaultCause) (op : Option Word) : (s.raise c op).pc = s.pc := rfl
@[simp] theorem State.raise_stack (c : FaultCause) (op : Option Word) : (s.raise c op).stack = s.stack := rfl
@[simp] theorem State.raise_mem (c : FaultCause) (op : Option Word) : (s.raise c op).mem = s.mem := rfl
@[simp] theorem State.raise_status (c : FaultCause) (op : Option Word) : (s.raise c op).status = .faulted ⟨c, s.pc, op⟩ := rfl
@[simp] theorem State.raise_skip (c : FaultCause) (op : Option Word) : (s.raise c op).skip = s.skip := rfl
@[simp] theorem State.raise_inbuf (c : FaultCause) (op : Option Word) : (s.raise c op).inbuf = s.inbuf := rfl
@[simp] theorem State.raise_out (c : FaultCause) (op : Option Word) : (s.raise c op).out = s.out := rfl
@[simp] theorem State.raise_readReg (c : FaultCause) (op : Option Word) (r : Fin 8) : (s.raise c op).readReg r = s.readReg r := rfl

@[simp] theorem State.raiseIn_params (o : Opcode) (c : FaultCause) : (s.raiseIn o c).params = s.params := rfl
@[simp] theorem State.raiseIn_regs (o : Opcode) (c : FaultCause) : (s.raiseIn o c).regs = s.regs := rfl
@[simp] theorem State.raiseIn_pc (o : Opcode) (c : FaultCause) : (s.raiseIn o c).pc = s.pc := rfl
@[simp] theorem State.raiseIn_stack (o : Opcode) (c : FaultCause) : (s.raiseIn o c).stack = s.stack := rfl
@[simp] theorem State.raiseIn_mem (o : Opcode) (c : FaultCause) : (s.raiseIn o c).mem = s.mem := rfl
@[simp] theorem State.raiseIn_status (o : Opcode) (c : FaultCause) : (s.raiseIn o c).status = .faulted ⟨c, s.pc, some (s.params.opcodes.number o)⟩ := rfl
@[simp] theorem State.raiseIn_skip (o : Opcode) (c : FaultCause) : (s.raiseIn o c).skip = s.skip := rfl
@[simp] theorem State.raiseIn_inbuf (o : Opcode) (c : FaultCause) : (s.raiseIn o c).inbuf = s.inbuf := rfl
@[simp] theorem State.raiseIn_out (o : Opcode) (c : FaultCause) : (s.raiseIn o c).out = s.out := rfl
@[simp] theorem State.raiseIn_readReg (o : Opcode) (c : FaultCause) (r : Fin 8) : (s.raiseIn o c).readReg r = s.readReg r := rfl

@[simp] theorem State.raiseOperand_params (o : Opcode) (p : Nat) (w : Word) : (s.raiseOperand o p w).params = s.params := rfl
@[simp] theorem State.raiseOperand_regs (o : Opcode) (p : Nat) (w : Word) : (s.raiseOperand o p w).regs = s.regs := rfl
@[simp] theorem State.raiseOperand_pc (o : Opcode) (p : Nat) (w : Word) : (s.raiseOperand o p w).pc = s.pc := rfl
@[simp] theorem State.raiseOperand_stack (o : Opcode) (p : Nat) (w : Word) : (s.raiseOperand o p w).stack = s.stack := rfl
@[simp] theorem State.raiseOperand_mem (o : Opcode) (p : Nat) (w : Word) : (s.raiseOperand o p w).mem = s.mem := rfl
@[simp] theorem State.raiseOperand_status (o : Opcode) (p : Nat) (w : Word) : (s.raiseOperand o p w).status = .faulted ⟨.invalidOperand p (s.pc.toNat + p) w, s.pc, some (s.params.opcodes.number o)⟩ := rfl
@[simp] theorem State.raiseOperand_skip (o : Opcode) (p : Nat) (w : Word) : (s.raiseOperand o p w).skip = s.skip := rfl
@[simp] theorem State.raiseOperand_inbuf (o : Opcode) (p : Nat) (w : Word) : (s.raiseOperand o p w).inbuf = s.inbuf := rfl
@[simp] theorem State.raiseOperand_out (o : Opcode) (p : Nat) (w : Word) : (s.raiseOperand o p w).out = s.out := rfl
@[simp] theorem State.raiseOperand_readReg (o : Opcode) (p : Nat) (w : Word) (r : Fin 8) : (s.raiseOperand o p w).readReg r = s.readReg r := rfl

@[simp] theorem State.halt_params (r : HaltReason) : (s.halt r).params = s.params := rfl
@[simp] theorem State.halt_regs (r : HaltReason) : (s.halt r).regs = s.regs := rfl
@[simp] theorem State.halt_pc (r : HaltReason) : (s.halt r).pc = s.pc := rfl
@[simp] theorem State.halt_stack (r : HaltReason) : (s.halt r).stack = s.stack := rfl
@[simp] theorem State.halt_mem (r : HaltReason) : (s.halt r).mem = s.mem := rfl
@[simp] theorem State.halt_status (r : HaltReason) : (s.halt r).status = .halted r := rfl
@[simp] theorem State.halt_skip (r : HaltReason) : (s.halt r).skip = s.skip := rfl
@[simp] theorem State.halt_inbuf (r : HaltReason) : (s.halt r).inbuf = s.inbuf := rfl
@[simp] theorem State.halt_out (r : HaltReason) : (s.halt r).out = s.out := rfl
@[simp] theorem State.halt_readReg (r : HaltReason) (q : Fin 8) : (s.halt r).readReg q = s.readReg q := rfl

@[simp] theorem State.suspend_params : (s.suspend).params = s.params := rfl
@[simp] theorem State.suspend_regs : (s.suspend).regs = s.regs := rfl
@[simp] theorem State.suspend_pc : (s.suspend).pc = s.pc := rfl
@[simp] theorem State.suspend_stack : (s.suspend).stack = s.stack := rfl
@[simp] theorem State.suspend_mem : (s.suspend).mem = s.mem := rfl
@[simp] theorem State.suspend_status : (s.suspend).status = .awaitingInput := rfl
@[simp] theorem State.suspend_skip : (s.suspend).skip = false := rfl
@[simp] theorem State.suspend_inbuf : (s.suspend).inbuf = s.inbuf := rfl
@[simp] theorem State.suspend_out : (s.suspend).out = s.out := rfl
@[simp] theorem State.suspend_readReg (r : Fin 8) : (s.suspend).readReg r = s.readReg r := rfl

@[simp] theorem State.setSkip_params : (s.setSkip).params = s.params := rfl
@[simp] theorem State.setSkip_regs : (s.setSkip).regs = s.regs := rfl
@[simp] theorem State.setSkip_pc : (s.setSkip).pc = s.pc := rfl
@[simp] theorem State.setSkip_stack : (s.setSkip).stack = s.stack := rfl
@[simp] theorem State.setSkip_mem : (s.setSkip).mem = s.mem := rfl
@[simp] theorem State.setSkip_status : (s.setSkip).status = s.status := rfl
@[simp] theorem State.setSkip_skip : (s.setSkip).skip = true := rfl
@[simp] theorem State.setSkip_inbuf : (s.setSkip).inbuf = s.inbuf := rfl
@[simp] theorem State.setSkip_out : (s.setSkip).out = s.out := rfl
@[simp] theorem State.setSkip_readReg (r : Fin 8) : (s.setSkip).readReg r = s.readReg r := rfl

/-! The updates that `withPush`, `withPop`, `withInput` and `withStore` make in place read no register either. -/

@[simp] theorem State.readReg_stack (l : List Word) (r : Fin 8) :
    State.readReg { s with stack := l } r = s.readReg r := rfl
@[simp] theorem State.readReg_inbuf (l : List Word) (r : Fin 8) :
    State.readReg { s with inbuf := l } r = s.readReg r := rfl
@[simp] theorem State.readReg_mem (m : Memory) (r : Fin 8) :
    State.readReg { s with mem := m } r = s.readReg r := rfl
@[simp] theorem State.readReg_status (x : Status) (r : Fin 8) :
    State.readReg { s with status := x } r = s.readReg r := rfl

/-- Reading a register after writing one (R67): the written one holds the value mod 32768, the others are as before. -/
theorem State.readReg_writeReg (d : Fin 8) (v : Nat) (r : Fin 8) :
    (s.writeReg d v).readReg r = if r = d then BitVec.ofNat 16 (v % 32768) else s.readReg r := by
  simp only [State.readReg, State.writeReg, Fin.getElem_fin, Vector.getElem_set, Fin.ext_iff, eq_comm]

@[simp] theorem State.readReg_writeReg_same (d : Fin 8) (v : Nat) :
    (s.writeReg d v).readReg d = BitVec.ofNat 16 (v % 32768) := by
  simp [State.readReg_writeReg]

theorem State.readReg_writeReg_other (d : Fin 8) (v : Nat) (r : Fin 8) (h : r ≠ d) :
    (s.writeReg d v).readReg r = s.readReg r := by
  simp [State.readReg_writeReg, h]

theorem State.toNat_readReg_writeReg_same (d : Fin 8) (v : Nat) :
    ((s.writeReg d v).readReg d).toNat = v % 32768 := by
  rw [State.readReg_writeReg_same, BitVec.toNat_ofNat]
  omega

/-- The sum of naturals in `pc + n` is exact where it fits 16 bits. -/
theorem State.pcPlus_toNat (n : Nat) (h : s.pc.toNat + n < 65536) : (s.pcPlus n).toNat = s.pc.toNat + n := by
  simp only [State.pcPlus, BitVec.toNat_ofNat]
  omega

end Sys2Proof.Machine
end

