-- ==== Sys2Proof/Laws/Operands.lean ====
section
/-! SUPPORT. What the resolvers answer, and for each shared operation one lemma that says everything it can do. -/

namespace Sys2Proof.Machine

variable {s t : State} {o : Opcode} {p : Nat} {w a b c : Word}

/-! ### The resolvers -/

theorem valOf_literal (s : State) (w : Word) (h : w.toNat < 32768) : valOf s w = some w := by
  simp [valOf, h]

theorem valOf_register (s : State) (w : Word) (h : 32768 ≤ w.toNat) (h' : w.toNat < 32776) :
    valOf s w = some (s.readReg ⟨w.toNat - 32768, by omega⟩) := by
  simp [valOf, h', Nat.not_lt.mpr h]

/-- `Val` fails exactly on the words that R52 calls invalid. -/
theorem valOf_eq_none_iff (s : State) (w : Word) : valOf s w = none ↔ valueWordValid w = false := by
  unfold valOf valueWordValid
  split
  · rename_i h
    simp [show w.toNat < 32776 by omega]
  · split <;> simp_all

/-- `Dest` fails exactly on the words that R53 does not admit. -/
theorem destOf_eq_none_iff (w : Word) : destOf w = none ↔ destWordValid w = false := by
  unfold destOf destWordValid
  split <;> simp_all

theorem destOf_eq_some_iff (w : Word) (d : Fin 8) : destOf w = some d ↔ d.val = w.toNat % 32768 := by
  unfold destOf
  split
  · simp [Fin.ext_iff, eq_comm]
  · simp only [reduceCtorEq, false_iff]
    omega

/-- Resolved values are below 32768 where register values are (R64). -/
theorem valOf_lt (hr : ∀ r, (s.readReg r).toNat < 32768) {v : Word} (h : valOf s w = some v) : v.toNat < 32768 := by
  unfold valOf at h
  split at h
  · cases h
    assumption
  · split at h
    · cases h
      exact hr _
    · cases h

/-- `Val` reads nothing but the registers (R64). -/
theorem valOf_congr (h : t.regs = s.regs) (w : Word) : valOf t w = valOf s w := by
  unfold valOf State.readReg
  rw [h]

/-! ### Going on, or faulting -/

theorem withVal_some {k : Word → Result} {v : Word} (h : valOf s w = some v) : withVal o p w s k = k v := by
  simp [withVal, h]

theorem withVal_none {k : Word → Result} (h : valOf s w = none) :
    withVal o p w s k = .next (s.raiseOperand o p w) := by
  simp [withVal, h]

theorem withDest_some {k : Fin 8 → Result} {d : Fin 8} (h : destOf w = some d) : withDest o p w s k = k d := by
  simp [withDest, h]

theorem withDest_none {k : Fin 8 → Result} (h : destOf w = none) :
    withDest o p w s k = .next (s.raiseOperand o p w) := by
  simp [withDest, h]

/-- A value operand is resolved and the instruction goes on, or it fails and the instruction faults. -/
theorem withVal_cases (o : Opcode) (p : Nat) (w : Word) (s : State) (k : Word → Result) :
    (∃ v, valOf s w = some v ∧ withVal o p w s k = k v) ∨
    (valOf s w = none ∧ withVal o p w s k = .next (s.raiseOperand o p w)) := by
  cases h : valOf s w with
  | some v => exact .inl ⟨v, rfl, withVal_some h⟩
  | none => exact .inr ⟨rfl, withVal_none h⟩

/-- A destination is resolved and the instruction goes on, or it fails and the instruction faults. -/
theorem withDest_cases (o : Opcode) (p : Nat) (w : Word) (s : State) (k : Fin 8 → Result) :
    (∃ d, destOf w = some d ∧ withDest o p w s k = k d) ∨
    (destOf w = none ∧ withDest o p w s k = .next (s.raiseOperand o p w)) := by
  cases h : destOf w with
  | some d => exact .inl ⟨d, rfl, withDest_some h⟩
  | none => exact .inr ⟨rfl, withDest_none h⟩

theorem withDestVal_some {k : Fin 8 → Word → Result} {d : Fin 8} {v : Word} (hd : destOf a = some d)
    (hv : valOf s b = some v) : withDestVal o a b s k = k d v := by
  simp [withDestVal, withDest_some hd, withVal_some hv]

theorem withDestValVal_some {k : Fin 8 → Word → Word → Result} {d : Fin 8} {u v : Word} (hd : destOf a = some d)
    (hu : valOf s b = some u) (hv : valOf s c = some v) : withDestValVal o a b c s k = k d u v := by
  simp [withDestValVal, withDest_some hd, withVal_some hu, withVal_some hv]

theorem withValVal_some {k : Word → Word → Result} {u v : Word} (hu : valOf s a = some u) (hv : valOf s b = some v) :
    withValVal o a b s k = k u v := by
  simp [withValVal, withVal_some hu, withVal_some hv]

/-- Destination and value both resolved, or InvalidOperand at the lowest position that fails (R66). -/
theorem withDestVal_cases (o : Opcode) (a b : Word) (s : State) (k : Fin 8 → Word → Result) :
    (∃ d v, destOf a = some d ∧ valOf s b = some v ∧ withDestVal o a b s k = k d v) ∨
    (destOf a = none ∧ withDestVal o a b s k = .next (s.raiseOperand o 1 a)) ∨
    (destOf a ≠ none ∧ valOf s b = none ∧ withDestVal o a b s k = .next (s.raiseOperand o 2 b)) := by
  unfold withDestVal
  cases hd : destOf a with
  | none => exact .inr (.inl ⟨rfl, withDest_none hd⟩)
  | some d =>
    rw [withDest_some hd]
    cases hv : valOf s b with
    | none => exact .inr (.inr ⟨by simp, rfl, withVal_none hv⟩)
    | some v => exact .inl ⟨d, v, rfl, rfl, withVal_some hv⟩

/-- Destination and both values resolved, or InvalidOperand at the lowest position that fails (R66). -/
theorem withDestValVal_cases (o : Opcode) (a b c : Word) (s : State) (k : Fin 8 → Word → Word → Result) :
    (∃ d u v, destOf a = some d ∧ valOf s b = some u ∧ valOf s c = some v ∧ withDestValVal o a b c s k = k d u v) ∨
    (destOf a = none ∧ withDestValVal o a b c s k = .next (s.raiseOperand o 1 a)) ∨
    (destOf a ≠ none ∧ valOf s b = none ∧ withDestValVal o a b c s k = .next (s.raiseOperand o 2 b)) ∨
    (destOf a ≠ none ∧ valOf s b ≠ none ∧ valOf s c = none ∧
      withDestValVal o a b c s k = .next (s.raiseOperand o 3 c)) := by
  unfold withDestValVal
  cases hd : destOf a with
  | none => exact .inr (.inl ⟨rfl, withDest_none hd⟩)
  | some d =>
    rw [withDest_some hd]
    cases hu : valOf s b with
    | none => exact .inr (.inr (.inl ⟨by simp, rfl, withVal_none hu⟩))
    | some u =>
      rw [withVal_some hu]
      cases hv : valOf s c with
      | none => exact .inr (.inr (.inr ⟨by simp, by simp, rfl, withVal_none hv⟩))
      | some v => exact .inl ⟨d, u, v, rfl, rfl, rfl, withVal_some hv⟩

/-- Both values resolved, or InvalidOperand at the lowest position that fails (R66). -/
theorem withValVal_cases (o : Opcode) (a b : Word) (s : State) (k : Word → Word → Result) :
    (∃ u v, valOf s a = some u ∧ valOf s b = some v ∧ withValVal o a b s k = k u v) ∨
    (valOf s a = none ∧ withValVal o a b s k = .next (s.raiseOperand o 1 a)) ∨
    (valOf s a ≠ none ∧ valOf s b = none ∧ withValVal o a b s k = .next (s.raiseOperand o 2 b)) := by
  unfold withValVal
  cases hu : valOf s a with
  | none => exact .inr (.inl ⟨rfl, withVal_none hu⟩)
  | some u =>
    rw [withVal_some hu]
    cases hv : valOf s b with
    | none => exact .inr (.inr ⟨by simp, rfl, withVal_none hv⟩)
    | some v => exact .inl ⟨u, v, rfl, rfl, withVal_some hv⟩

/-! ### Stack, input and memory -/

/-- The stack is full exactly when the capacity is the depth (R19). -/
theorem stackFull_eq_true_iff (m : StackMax) (depth : Nat) : stackFull m depth = true ↔ m = .atMost depth := by
  cases m <;> simp [stackFull]
  exact ⟨Eq.symm, Eq.symm⟩

/-- A push faults at capacity, or the value is the new top. -/
theorem withPush_cases (o : Opcode) (v : Word) (s : State) (k : State → Result) :
    (stackFull s.params.stackMax s.stack.length = true ∧ withPush o v s k = .next (s.raiseIn o .stackOverflow)) ∨
    (stackFull s.params.stackMax s.stack.length = false ∧ withPush o v s k = k { s with stack := v :: s.stack }) := by
  unfold withPush
  cases stackFull s.params.stackMax s.stack.length <;> simp

/-- A pop meets an empty stack, or removes the top. -/
theorem withPop_cases (s : State) (e : Result) (k : Word → State → Result) :
    (s.stack = [] ∧ withPop s e k = e) ∨
    (∃ v rest, s.stack = v :: rest ∧ withPop s e k = k v { s with stack := rest }) := by
  unfold withPop
  cases s.stack <;> simp

/-- An input read meets an empty buffer, or removes the oldest code. -/
theorem withInput_cases (s : State) (e : Result) (k : Word → State → Result) :
    (s.inbuf = [] ∧ withInput s e k = e) ∨
    (∃ v rest, s.inbuf = v :: rest ∧ withInput s e k = k v { s with inbuf := rest }) := by
  unfold withInput
  cases s.inbuf <;> simp

theorem withLoad_inRange {addr : Nat} {k : Word → Result} (h : addr < 32768) :
    withLoad addr s k = k (Memory.read s.mem addr) := by
  simp [withLoad, h]

theorem withStore_inRange {addr : Nat} {v : Word} {k : State → Result} (h : addr < 32768) :
    withStore addr v s k = k { s with mem := Memory.write s.mem addr v } := by
  simp [withStore, h]

/-- A data read gives the word, or the address does not exist. -/
theorem withLoad_cases (addr : Nat) (s : State) (k : Word → Result) :
    (addr < 32768 ∧ withLoad addr s k = k (Memory.read s.mem addr)) ∨
    (32768 ≤ addr ∧ withLoad addr s k = .fault (.addressOutsideMemory addr)) := by
  unfold withLoad
  split
  · exact .inl ⟨by assumption, rfl⟩
  · exact .inr ⟨by omega, rfl⟩

/-- A data write sets the word, or the address does not exist. -/
theorem withStore_cases (addr : Nat) (v : Word) (s : State) (k : State → Result) :
    (addr < 32768 ∧ withStore addr v s k = k { s with mem := Memory.write s.mem addr v }) ∨
    (32768 ≤ addr ∧ withStore addr v s k = .fault (.addressOutsideMemory addr)) := by
  unfold withStore
  split
  · exact .inl ⟨by assumption, rfl⟩
  · exact .inr ⟨by omega, rfl⟩

end Sys2Proof.Machine
end

