-- ==== Sys2Proof/Laws/PerInstr.lean ====
section
/-! SUPPORT. Statements about every instruction as syntax, one lemma per constructor. -/

namespace Sys2Proof.Laws.EncodedLength

/-- The encoding of an instruction has `1 + arity` words (30_encoding.md R47), and as many operand words as kinds. -/
def Statement (i : Instr) : Prop :=
  ∀ m : OpcodeMap, (encode m i).length = i.opcode.length ∧ i.operands.length = i.opcode.kinds.length

theorem halt : Statement (.halt) := fun _ => ⟨rfl, rfl⟩
theorem set (a b : Word) : Statement (.set a b) := fun _ => ⟨rfl, rfl⟩
theorem push (a : Word) : Statement (.push a) := fun _ => ⟨rfl, rfl⟩
theorem pop (a : Word) : Statement (.pop a) := fun _ => ⟨rfl, rfl⟩
theorem eq (a b c : Word) : Statement (.eq a b c) := fun _ => ⟨rfl, rfl⟩
theorem gt (a b c : Word) : Statement (.gt a b c) := fun _ => ⟨rfl, rfl⟩
theorem jmp (a : Word) : Statement (.jmp a) := fun _ => ⟨rfl, rfl⟩
theorem jt (a b : Word) : Statement (.jt a b) := fun _ => ⟨rfl, rfl⟩
theorem jf (a b : Word) : Statement (.jf a b) := fun _ => ⟨rfl, rfl⟩
theorem add (a b c : Word) : Statement (.add a b c) := fun _ => ⟨rfl, rfl⟩
theorem mult (a b c : Word) : Statement (.mult a b c) := fun _ => ⟨rfl, rfl⟩
theorem mod (a b c : Word) : Statement (.mod a b c) := fun _ => ⟨rfl, rfl⟩
theorem and (a b c : Word) : Statement (.and a b c) := fun _ => ⟨rfl, rfl⟩
theorem or (a b c : Word) : Statement (.or a b c) := fun _ => ⟨rfl, rfl⟩
theorem not (a b : Word) : Statement (.not a b) := fun _ => ⟨rfl, rfl⟩
theorem rmem (a b : Word) : Statement (.rmem a b) := fun _ => ⟨rfl, rfl⟩
theorem wmem (a b : Word) : Statement (.wmem a b) := fun _ => ⟨rfl, rfl⟩
theorem call (a : Word) : Statement (.call a) := fun _ => ⟨rfl, rfl⟩
theorem ret : Statement (.ret) := fun _ => ⟨rfl, rfl⟩
theorem out (a : Word) : Statement (.out a) := fun _ => ⟨rfl, rfl⟩
theorem inp (a : Word) : Statement (.inp a) := fun _ => ⟨rfl, rfl⟩
theorem nop : Statement (.nop) := fun _ => ⟨rfl, rfl⟩

end Sys2Proof.Laws.EncodedLength
end

