-- ==== Sys2Proof/Laws/Step.lean ====
section
/-! SUPPORT. What one step can do, said once. -/

namespace Sys2Proof.Machine

theorem step_of_running {s : State} (h : s.status = .running) : step s = runInstr s := by
  simp [step, stepBody, h]

theorem step_of_not_running {s : State} (h : s.status ≠ .running) : step s = .next s := by
  unfold step stepBody
  split <;> first | contradiction | rfl

theorem fetchInstr_ok {s : State} {i : Instr} {rest : List Word}
    (h : decode s.params.opcodes s.window = .ok (i, rest)) : s.fetchInstr = .ok i := by
  simp [State.fetchInstr, h]

theorem fetchInstr_error {s : State} {e : DecodeError}
    (h : decode s.params.opcodes s.window = .error e) : s.fetchInstr = .error e := by
  simp [State.fetchInstr, h]

/-- One step, case by case: the engine is idle; or its words are no instruction and the step takes that fault; or they
decode to `i` and the step is `exec i`. -/
theorem step_cases (s : State) :
    (s.status ≠ .running ∧ step s = .next s) ∨
    (s.status = .running ∧ ∃ e, decode s.params.opcodes s.window = .error e ∧ step s = .next (s.raiseDecode e)) ∨
    (s.status = .running ∧ ∃ i rest, decode s.params.opcodes s.window = .ok (i, rest) ∧ step s = exec i s) := by
  by_cases h : s.status = .running
  · cases hd : decode s.params.opcodes s.window with
    | error e =>
      exact .inr (.inl ⟨h, e, rfl, by rw [step_of_running h, runInstr, fetchInstr_error hd]⟩)
    | ok r => exact .inr (.inr ⟨h, r.1, r.2, rfl, by rw [step_of_running h, runInstr, fetchInstr_ok hd]⟩)
  · exact .inl ⟨h, step_of_not_running h⟩

/-- The fault of a decoding changes `status` alone, and its record has the address `pc`. -/
theorem raiseDecode_eq (s : State) (e : DecodeError) :
    ∃ cause op, s.raiseDecode e = s.raise cause op := by
  cases e <;> exact ⟨_, _, rfl⟩

end Sys2Proof.Machine
end

