-- ==== Sys2Proof/Tests/Slice0.lean ====
section
/-! SUPPORT. The model's own tests, by decide. Expected results are the spec's: the encodings of 30_encoding.md R50, R53,
R57, the examples of the instruction rules, and the vectors of 95_test_vectors.md. Then a witness for each obligation
that has hypotheses. -/

namespace Sys2Proof.Machine.Tests

open Sys2Proof Sys2Proof.Machine

/-! ### Well-formedness refuses each kind of ill-formed operand (R52, R53) -/

theorem test_wf_refuses_value_word : Instr.firstInvalid (.push 32776) = some (1, 32776) := by decide
theorem test_wf_refuses_dest_word : Instr.firstInvalid (.pop 8) = some (1, 8) := by decide
theorem test_wf_refuses_dest_register_word : Instr.firstInvalid (.inp 32776) = some (1, 32776) := by decide
theorem test_wf_refuses_second_operand : Instr.firstInvalid (.set 32768 65535) = some (2, 65535) := by decide
theorem test_wf_refuses_third_operand : Instr.firstInvalid (.add 7 32775 40000) = some (3, 40000) := by decide
theorem test_wf_reports_lowest : Instr.firstInvalid (.eq 9 40000 40000) = some (1, 9) := by decide
theorem test_wf_admits : Instr.WellFormed (.mod 32775 32767 32768) ∧ Instr.WellFormed (.wmem 8 32767) := by decide

/-! ### Each constructor decodes from its words (R48, R50); the last word of each list is not the instruction's -/

theorem test_decode_halt : decode defaultOpcodes [0, 65535] = .ok (.halt, [65535]) := by rfl
theorem test_decode_set : decode defaultOpcodes [1, 32769, 6, 65535] = .ok (.set 32769 6, [65535]) := by rfl
theorem test_decode_push : decode defaultOpcodes [2, 5, 65535] = .ok (.push 5, [65535]) := by rfl
theorem test_decode_pop : decode defaultOpcodes [3, 32768, 65535] = .ok (.pop 32768, [65535]) := by rfl
theorem test_decode_eq : decode defaultOpcodes [4, 32770, 4, 5, 65535] = .ok (.eq 32770 4 5, [65535]) := by rfl
theorem test_decode_gt : decode defaultOpcodes [5, 32770, 7, 3, 65535] = .ok (.gt 32770 7 3, [65535]) := by rfl
theorem test_decode_jmp : decode defaultOpcodes [6, 300, 65535] = .ok (.jmp 300, [65535]) := by rfl
theorem test_decode_jt : decode defaultOpcodes [7, 32768, 20, 65535] = .ok (.jt 32768 20, [65535]) := by rfl
theorem test_decode_jf : decode defaultOpcodes [8, 32768, 21, 65535] = .ok (.jf 32768 21, [65535]) := by rfl
theorem test_decode_add : decode defaultOpcodes [9, 32770, 32768, 32769, 65535] = .ok (.add 32770 32768 32769, [65535]) := by rfl
theorem test_decode_mult : decode defaultOpcodes [10, 32768, 3, 5, 65535] = .ok (.mult 32768 3 5, [65535]) := by rfl
theorem test_decode_mod : decode defaultOpcodes [11, 32768, 17, 5, 65535] = .ok (.mod 32768 17 5, [65535]) := by rfl
theorem test_decode_and : decode defaultOpcodes [12, 32768, 12, 10, 65535] = .ok (.and 32768 12 10, [65535]) := by rfl
theorem test_decode_or : decode defaultOpcodes [13, 32768, 12, 10, 65535] = .ok (.or 32768 12 10, [65535]) := by rfl
theorem test_decode_not : decode defaultOpcodes [14, 32768, 21845, 65535] = .ok (.not 32768 21845, [65535]) := by rfl
theorem test_decode_rmem : decode defaultOpcodes [15, 32769, 100, 65535] = .ok (.rmem 32769 100, [65535]) := by rfl
theorem test_decode_wmem : decode defaultOpcodes [16, 100, 32768, 65535] = .ok (.wmem 100 32768, [65535]) := by rfl
theorem test_decode_call : decode defaultOpcodes [17, 100, 65535] = .ok (.call 100, [65535]) := by rfl
theorem test_decode_ret : decode defaultOpcodes [18, 65535] = .ok (.ret, [65535]) := by rfl
theorem test_decode_out : decode defaultOpcodes [19, 32770, 65535] = .ok (.out 32770, [65535]) := by rfl
theorem test_decode_inp : decode defaultOpcodes [20, 32768, 65535] = .ok (.inp 32768, [65535]) := by rfl
theorem test_decode_nop : decode defaultOpcodes [21, 65535] = .ok (.nop, [65535]) := by rfl
theorem test_decode_register_opcode : decode defaultOpcodes [32768] = .error (.unknownOpcode 32768) := by rfl
theorem test_decode_missing : decode defaultOpcodes [9, 32768, 1] = .error (.missingOperand 9 3) := by rfl
theorem test_assembled_words : [registerWord 7, literalWord 32767] = [32775, 32767] := by decide
theorem test_mov_is_set : encode defaultOpcodes (mov 32768 4) = [1, 32768, 4] := by decide
theorem test_decode_high_number : decode ⟨defaultOpcodes.numbers.set 21 32768⟩ [32768] = .error (.unknownOpcode 32768) := by rfl
theorem test_table_word : decodeTableWord 16 22 = none ∧ decodeTableWord 16 (9 + 2 ^ 16) = some (.add 0 0 0) := by decide

/-! ### Resolution (95_test_vectors.md section 2.1) -/

/-- `x[0] = 11`, `x[7] = 77`. -/
def resolving : State := { State.reset with regs := #v[11, 0, 0, 0, 0, 0, 0, 77] }

theorem test_val : [0, 7, 8, 32767, 32768, 32775, 32776, 65535].map (valOf resolving) =
    [some 0, some 7, some 8, some 32767, some 11, some 77, none, none] := by decide
theorem test_dest : [0, 7, 8, 32767, 32768, 32775, 32776, 65535].map destOf =
    [some 0, some 7, none, none, some 0, some 7, none, none] := by decide

/-! ### One step of each instruction -/

/-- A running state with words at an address, `pc` there, and the first two registers set. -/
def at_ (pc : Nat) (ws : List Word) (r0 r1 : Word := 0) (stack : List Word := []) : State :=
  { State.reset with
    regs := #v[r0, r1, 0, 0, 0, 0, 0, 0],
    pc := BitVec.ofNat 16 pc,
    stack := stack,
    mem := Memory.place [] pc ws,
    status := .running }

/-- What is asked of a next state. -/
def next (s : State) (p : State → Bool) : Bool :=
  match step s with
  | .next t => p t
  | .fault _ => false
  | .refused _ => false

/-- A next state's fault record. -/
def faults (s : State) (cause : FaultCause) (pc : Word) (op : Option Word) : Bool :=
  next s fun t => decide (t.faultRecord = some ⟨cause, pc, op⟩ ∧ t.pc = s.pc ∧ t.regs = s.regs ∧ t.stack = s.stack)

theorem test_halt : next (at_ 4 [0]) (fun t => t.status == .halted .halt && t.pc == 4) = true := by decide
theorem test_jmp_register : next (at_ 10 [6, 32769] 0 300) (fun t => t.pc == 300) = true := by decide
theorem test_jt_not_taken : next (at_ 5 [7, 32768, 20] 0) (fun t => t.pc == 8) = true := by decide
theorem test_jt_resolves_target : faults (at_ 5 [7, 0, 32776]) (.invalidOperand 2 7 32776) 5 (some 7) = true := by decide
theorem test_jf_taken : next (at_ 5 [8, 32768, 20] 0) (fun t => t.pc == 20) = true := by decide
theorem test_jf_not_taken : next (at_ 5 [8, 32768, 20] 7) (fun t => t.pc == 8) = true := by decide
theorem test_call_at_top : next (at_ 32766 [17, 100]) (fun t => t.pc == 100 && t.stack == [32768]) = true := by decide
theorem test_call_overflow : faults { at_ 6 [17, 100] 0 0 [9] with params := ⟨.atMost 1, defaultOpcodes⟩ }
    .stackOverflow 6 (some 17) = true := by decide
theorem test_ret : next (at_ 40 [18] 0 0 [32768, 3]) (fun t => t.pc == 32768 && t.stack == [3]) = true := by decide
theorem test_ret_empty : next (at_ 40 [18]) (fun t => t.status == .halted .retEmpty && t.pc == 40) = true := by decide
theorem test_nop_at_top : next (at_ 32767 [21]) (fun t => t.pc == 32768 && t.status == .running) = true := by decide
theorem test_set : next (at_ 3 [1, 32769, 6]) (fun t => t.readReg 1 == 6 && t.pc == 6) = true := by decide
theorem test_set_bad_destination : faults (at_ 0 [1, 8, 9]) (.invalidOperand 1 1 8) 0 (some 1) = true := by decide
theorem test_push_register : next (at_ 0 [2, 32769] 0 7) (fun t => t.stack == [7] && t.pc == 2) = true := by decide
theorem test_push_overflow : faults { at_ 0 [2, 1] 0 0 [2, 1] with params := ⟨.atMost 2, defaultOpcodes⟩ }
    .stackOverflow 0 (some 2) = true := by decide
theorem test_pop_reduces : next (at_ 2 [3, 32769] 0 5 [32768]) (fun t => t.readReg 1 == 0 && t.stack == [] && t.pc == 4) = true := by decide
theorem test_pop_empty : faults (at_ 0 [3, 32768] 9) (.emptyStackPop) 0 (some 3) = true := by decide
theorem test_rmem_reduces : next (at_ 0 [15, 32769, 3, 65535]) (fun t => t.readReg 1 == 32767 && t.pc == 3) = true := by decide
theorem test_rmem_same_register : next (at_ 0 [15, 32768, 32768, 0, 0, 77] 5) (fun t => t.readReg 0 == 77) = true := by decide
theorem test_wmem_address_in_register : next (at_ 0 [16, 32768, 7] 200) (fun t => Memory.read t.mem 200 == 7 && t.pc == 3) = true := by decide
theorem test_wmem_address_is_no_register : next (at_ 0 [16, 1, 7] 0 4) (fun t => Memory.read t.mem 1 == 7 && t.readReg 1 == 4) = true := by decide
theorem test_eq_same_register : next (at_ 0 [4, 32768, 32768, 32768] 9) (fun t => t.readReg 0 == 1 && t.pc == 4) = true := by decide
theorem test_eq_differs : next (at_ 0 [4, 32768, 0, 32767] 9) (fun t => t.readReg 0 == 0) = true := by decide
theorem test_gt_unsigned : next (at_ 0 [5, 32768, 32767, 0]) (fun t => t.readReg 0 == 1 && t.pc == 4) = true := by decide
theorem test_gt_equal : next (at_ 0 [5, 32768, 3, 3] 9) (fun t => t.readReg 0 == 0) = true := by decide
theorem test_add : next (at_ 0 [9, 32770, 32768, 32769] 4 6) (fun t => t.readReg 2 == 10 && t.pc == 4) = true := by decide
theorem test_add_wraps : next (at_ 0 [9, 32768, 32768, 32768] 20000) (fun t => t.readReg 0 == 7232) = true := by decide
theorem test_mult : next (at_ 0 [10, 32768, 200, 200]) (fun t => t.readReg 0 == 7232 && t.pc == 4) = true := by decide
theorem test_mult_wraps : next (at_ 0 [10, 32768, 32767, 32767]) (fun t => t.readReg 0 == 1) = true := by decide
theorem test_mod : next (at_ 0 [11, 32768, 17, 5]) (fun t => t.readReg 0 == 2 && t.pc == 4) = true := by decide
theorem test_mod_by_zero : faults (at_ 0 [11, 32768, 10, 32769] 9) (.divisionByZero) 0 (some 11) = true := by decide
theorem test_and : next (at_ 0 [12, 32768, 12, 10]) (fun t => t.readReg 0 == 8 && t.pc == 4) = true := by decide
theorem test_or : next (at_ 0 [13, 32768, 12, 10]) (fun t => t.readReg 0 == 14 && t.pc == 4) = true := by decide
theorem test_not : next (at_ 0 [14, 32768, 12345]) (fun t => t.readReg 0 == 20422 && t.pc == 3) = true := by decide
theorem test_not_of_all_ones : next (at_ 0 [14, 32768, 32767] 5) (fun t => t.readReg 0 == 0) = true := by decide
theorem test_out_passes_skip : next { at_ 0 [19, 72] with skip := true }
    (fun t => t.out == [⟨72, true⟩] && t.skip && t.pc == 2) = true := by decide
theorem test_in : next { at_ 0 [20, 32768] with inbuf := [40000, 10] }
    (fun t => t.readReg 0 == 7232 && t.inbuf == [10] && t.pc == 2) = true := by decide
theorem test_in_suspends : next { at_ 0 [20, 32768] 3 with skip := true }
    (fun t => t.status == .awaitingInput && !t.skip && t.pc == 0 && t.readReg 0 == 3) = true := by decide

/-! ### Fetch, decode and priority (95_test_vectors.md section 2.2) -/

theorem test_unknown_opcode : faults (at_ 0 [22]) (.unknownOpcode) 0 (some 22) = true := by decide
theorem test_opcode_is_no_register : faults (at_ 0 [32768] 1) (.unknownOpcode) 0 (some 32768) = true := by decide
theorem test_opcode_fetch_out_of_range : faults (at_ 32768 []) (.fetchOutOfRange none 32768) 32768 (none) = true := by decide
theorem test_operand_fetch_out_of_range : faults (at_ 32765 [9, 32768, 1]) (.fetchOutOfRange (some 3) 32768) 32765 (some 9) = true := by decide
theorem test_invalid_before_zero : faults (at_ 0 [11, 32776, 32768, 0]) (.invalidOperand 1 1 32776) 0 (some 11) = true := by decide
theorem test_invalid_before_empty : faults (at_ 0 [3, 9]) (.invalidOperand 1 1 9) 0 (some 3) = true := by decide
theorem test_invalid_before_suspension : faults (at_ 0 [20, 40000]) (.invalidOperand 1 1 40000) 0 (some 20) = true := by decide

/-! ### The loader, the host and the placed word -/

theorem test_loader : (loadImage [9, 0, 0, 128, 1, 128, 4, 0]).map (fun m => [0, 1, 2, 3, 4].map (Memory.read m)) =
    some [9, 32768, 32769, 4, 0] := by decide
theorem test_loader_odd : loadImage [9, 0, 0] = none := by decide
theorem test_boot_empty_is_reset : bootImage State.reset.params [] = some State.reset := by decide
theorem test_start_from_reset : hostAct .start State.reset = ({ State.reset with status := .running }, .runs) := by decide
theorem test_resume_in_ready : hostAct .resume State.reset = (State.reset, .notSuspended) := by decide
theorem test_append_does_not_resume : (hostAct (.append [65, 10]) { State.reset with status := .awaitingInput }).1.status =
    .awaitingInput := by decide
theorem test_signal_twice : (hostAct .signal (hostAct .signal (at_ 0 [0])).1).1.skip = true := by decide
theorem test_placed_word_runs : next (State.reset.withFetchWord 16 21) (fun t => t.pc == 1 && t.status == .running) = true := by
  decide

/-! ### Witnesses: for each obligation with hypotheses, a state and operands that meet them, each clause at a boundary -/

/-- The last word of memory is under `pc`; two entries on the stack. -/
def edge : State := at_ 32767 [] 4 6 [32768, 3]

theorem edge_dataInv : DataInv edge where
  params := by decide
  regs := by decide
  pc := by decide
  stack := by
    intro v hv
    rcases List.mem_cons.mp hv with rfl | hv
    · decide
    · rcases List.mem_singleton.mp hv with rfl
      decide
  depth := by decide
  mem := by decide
  out := by
    intro e he
    cases he

theorem edge_controlInv : ControlInv edge where
  ready h := by cases h
  awaiting h := by cases h
  haltedByHalt h := by cases h
  haltedByRet h := by cases h
  faulted _ h := by cases h

/-- Data invariant of a running state built from words, registers below 32768 and an empty stack. -/
theorem at_dataInv (pc : Nat) (ws : List Word) (r0 r1 : Word) (hp : pc ≤ 32768)
    (h0 : r0.toNat < 32768) (h1 : r1.toNat < 32768) (hm : Memory.wf (Memory.place [] pc ws) = true) :
    DataInv (at_ pc ws r0 r1) where
  params := (by decide : State.reset.params.Valid)
  regs r := by
    fin_cases r
    · exact h0
    · exact h1
    all_goals exact (by decide : (0 : Word).toNat < 32768)
  pc := by
    show (BitVec.ofNat 16 pc).toNat ≤ 32768
    rw [BitVec.toNat_ofNat]
    omega
  stack _ h := by cases h
  depth := rfl
  mem := hm
  out _ h := by cases h

/-- A running state whose map gives NOP the number 32768, at that word. -/
def highNumber : State := { at_ 0 [32768] with params := ⟨.infinity, ⟨defaultOpcodes.numbers.set 21 32768⟩⟩ }

/-- For the clauses that `CommonFaults` adds to R76 to R97: a last operand that memory lacks, for each length, an opcode number
from 32768 on, and `pc` outside memory; an invalid operand for each instruction stands in its own witness. -/
theorem witness_CommonFaults : edge.params.opcodes.Injective ∧
    (highNumber.params.Valid ∧ highNumber.status = .running ∧ highNumber.pc.toNat < 32768 ∧
      32768 ≤ (highNumber.params.opcodes.number (Instr.nop).opcode).toNat ∧
      Memory.read highNumber.mem highNumber.pc.toNat = highNumber.params.opcodes.number (Instr.nop).opcode) ∧
    (∀ i : Fin 22, defaultOpcodes.numbers[i].toNat < 32768) ∧
    ((at_ 32767 [2]).pc.toNat + 1 = 32768 ∧ Opcode.push.arity = 1 ∧
      Memory.read (at_ 32767 [2]).mem 32767 = defaultOpcodes.number .push) ∧
    ((at_ 32766 [1, 8]).pc.toNat + 2 = 32768 ∧ Opcode.set.arity = 2 ∧
      Memory.read (at_ 32766 [1, 8]).mem 32766 = defaultOpcodes.number .set) ∧
    ((at_ 32765 [9, 8, 65535]).pc.toNat + 3 = 32768 ∧ Opcode.add.arity = 3 ∧
      Memory.read (at_ 32765 [9, 8, 65535]).mem 32765 = defaultOpcodes.number .add) ∧
    (at_ 32768 []).status = .running ∧ 32768 ≤ (at_ 32768 []).pc.toNat := by decide

theorem witness_HaltStopsCleanly : edge.params.opcodes = defaultOpcodes ∧ edge.status = .running ∧
    edge.pc.toNat < 32768 ∧ Memory.read edge.mem edge.pc.toNat = 0 := by decide

theorem witness_JmpGoesToItsTarget : (Instr.jmp 32776).firstInvalid = some (1, 32776) ∧ valOf edge 32769 = some 6 ∧
    valOf edge 32767 = some edge.pc := by decide

theorem witness_JtJumpsIfNonzero : (Instr.jt 0 32776).firstInvalid = some (2, 32776) ∧ valOf edge 32768 = some 4 ∧
    valOf edge 0 = some 0 ∧ valOf edge 32767 = some 32767 ∧ edge.pc.toNat < 32768 ∧ (4 : Word).toNat ≠ 0 := by decide

theorem witness_JfJumpsIfZero : (Instr.jf 32776 0).firstInvalid = some (1, 32776) ∧ valOf edge 32769 = some 6 ∧
    valOf edge 0 = some 0 ∧ valOf edge 32767 = some 32767 ∧ edge.pc.toNat < 32768 ∧ (6 : Word).toNat ≠ 0 := by decide

theorem witness_CallPushesReturnAddress : (Instr.call 65535).firstInvalid = some (1, 65535) ∧
    valOf edge 32767 = some 32767 ∧ edge.stack.length = 2 ∧ edge.params.stackMax ≠ .atMost 2 ∧
    edge.pc.toNat < 32768 ∧ valOf { edge with params := ⟨.atMost 2, defaultOpcodes⟩ } 32767 = some 32767 := by decide

theorem witness_RetReturnsOrHalts : State.reset.stack = [] ∧ edge.stack = 32768 :: [3] := by decide

theorem witness_NopOnlyAdvances : edge.pc.toNat < 32768 := by decide

theorem witness_SetCopiesValue : (Instr.set 8 0).firstInvalid = some (1, 8) ∧ destOf 7 = some 7 ∧ destOf 32775 = some 7 ∧
    valOf edge 32767 = some 32767 ∧ edge.pc.toNat < 32768 := by decide

theorem witness_PushPutsValueOnTop : (Instr.push 32776).firstInvalid = some (1, 32776) ∧ valOf edge 32768 = some 4 ∧
    edge.stack.length = 2 ∧ edge.params.stackMax ≠ .atMost 2 ∧ edge.pc.toNat < 32768 ∧
    valOf { edge with params := ⟨.atMost 2, defaultOpcodes⟩ } 32768 = some 4 := by decide

theorem witness_PopTakesTop : (Instr.pop 32767).firstInvalid = some (1, 32767) ∧ destOf 0 = some 0 ∧
    State.reset.stack = [] ∧ edge.stack = 32768 :: [3] ∧ edge.pc.toNat < 32768 := by decide

theorem witness_RmemReadsMemory : ((Instr.rmem 32776 0).firstInvalid = some (1, 32776) ∧ destOf 32768 = some 0 ∧
    valOf edge 32767 = some 32767 ∧ (32767 : Word).toNat < 32768 ∧ edge.pc.toNat < 32768) ∧ DataInv edge :=
  ⟨by decide, edge_dataInv⟩

theorem witness_WmemWritesMemory : ((Instr.wmem 0 32776).firstInvalid = some (2, 32776) ∧ Memory.wf edge.mem = true ∧
    valOf edge 32767 = some 32767 ∧ valOf edge 32769 = some 6 ∧ (32767 : Word).toNat < 32768 ∧ edge.pc.toNat < 32768) ∧
    DataInv edge :=
  ⟨by decide, edge_dataInv⟩

theorem witness_EqComparesValues : (Instr.eq 0 0 40000).firstInvalid = some (3, 40000) ∧ destOf 32768 = some 0 ∧
    valOf edge 32768 = some 4 ∧ valOf edge 4 = some 4 ∧ valOf edge 5 = some 5 ∧ edge.pc.toNat < 32768 := by decide

theorem witness_GtComparesUnsigned : (Instr.gt 0 40000 0).firstInvalid = some (2, 40000) ∧ destOf 32768 = some 0 ∧
    valOf edge 32767 = some 32767 ∧ valOf edge 32766 = some 32766 ∧ (32766 : Word).toNat < (32767 : Word).toNat ∧
    edge.pc.toNat < 32768 := by decide

theorem witness_AddWrapsAt32768 : (Instr.add 9 0 0).firstInvalid = some (1, 9) ∧ destOf 32768 = some 0 ∧
    valOf edge 32767 = some 32767 ∧ valOf edge 1 = some 1 ∧ edge.pc.toNat < 32768 := by decide

theorem witness_MultWrapsAt32768 : (Instr.mult 9 0 0).firstInvalid = some (1, 9) ∧ destOf 32768 = some 0 ∧
    valOf edge 32767 = some 32767 ∧ edge.pc.toNat < 32768 := by decide

theorem witness_ModTakesRemainder : ((Instr.mod 32776 32768 0).firstInvalid = some (1, 32776) ∧ destOf 32768 = some 0 ∧
    valOf edge 32767 = some 32767 ∧ valOf edge 0 = some 0 ∧ valOf edge 1 = some 1 ∧ edge.pc.toNat < 32768) ∧
    DataInv edge :=
  ⟨by decide, edge_dataInv⟩

theorem witness_AndIsBitwise : (Instr.and 9 0 0).firstInvalid = some (1, 9) ∧ destOf 7 = some 7 ∧
    valOf edge 32767 = some 32767 ∧ valOf edge 32768 = some 4 ∧ edge.pc.toNat < 32768 := by decide

theorem witness_OrIsBitwise : (Instr.or 0 32776 0).firstInvalid = some (2, 32776) ∧ destOf 7 = some 7 ∧
    valOf edge 32767 = some 32767 ∧ valOf edge 32768 = some 4 ∧ edge.pc.toNat < 32768 := by decide

theorem witness_NotComplementsFifteenBits : (Instr.not 0 32776).firstInvalid = some (2, 32776) ∧ destOf 32768 = some 0 ∧
    valOf edge 32767 = some 32767 ∧ (32767 : Word).toNat < 32768 ∧ edge.pc.toNat < 32768 := by decide

theorem witness_OutEmitsValueAndSkip : ((Instr.out 32776).firstInvalid = some (1, 32776) ∧ valOf edge 32767 = some 32767 ∧
    edge.pc.toNat < 32768) ∧ DataInv edge :=
  ⟨by decide, edge_dataInv⟩

theorem witness_InTakesCodeOrSuspends : (Instr.inp 40000).firstInvalid = some (1, 40000) ∧ destOf 32775 = some 7 ∧
    edge.inbuf = [] ∧ { edge with inbuf := [65535, 10] }.inbuf = 65535 :: [10] ∧ edge.pc.toNat < 32768 := by decide

theorem witness_DecodeInvertsEncode : defaultOpcodes.Injective ∧ (defaultOpcodes.number .nop).toNat < 32768 ∧
    highNumber.params.opcodes.Injective ∧ 32768 ≤ (highNumber.params.opcodes.number .nop).toNat := by decide

theorem witness_EncodeInvertsDecode : decode defaultOpcodes [16, 3, 0, 7] = .ok (.wmem 3 0, [7]) ∧
    decode (at_ 32764 [9, 1, 2, 3]).params.opcodes (at_ 32764 [9, 1, 2, 3]).window = .ok (.add 1 2 3, []) ∧
    (Instr.add 1 2 3).operands[2]? = some 3 := ⟨rfl, rfl, rfl⟩

theorem witness_StepRunsDecodedInstr : edge.status = .running ∧
    decode edge.params.opcodes edge.window = .ok (.halt, []) := ⟨rfl, rfl⟩

theorem witness_StepIsIdleUnlessRunning : State.reset.status ≠ .running := by decide

theorem witness_FetchOutOfRangeFaults : (at_ 32768 []).status = .running ∧ 32768 ≤ (at_ 32768 []).pc.toNat ∧
    (at_ 32767 [9]).pc.toNat + 1 = 32768 ∧
    (at_ 32767 [9]).params.opcodes.find (Memory.read (at_ 32767 [9]).mem (at_ 32767 [9]).pc.toNat) = some .add ∧
    (at_ 32765 [9, 32776]).pc.toNat + 3 = 32768 ∧ Opcode.add.arity = 3 := by decide

theorem witness_UnknownOpcodeFaults : (at_ 0 [22]).status = .running ∧ (at_ 0 [22]).pc.toNat < 32768 ∧
    (∀ o, (at_ 0 [22]).params.opcodes.number o ≠ Memory.read (at_ 0 [22]).mem (at_ 0 [22]).pc.toNat) ∧
    32768 ≤ (Memory.read highNumber.mem highNumber.pc.toNat).toNat :=
  ⟨by decide, by decide, fun o => by cases o <;> decide, by decide⟩

theorem witness_ValResolvesOperands : (32767 : Word).toNat < 32768 ∧ (32775 : Word).toNat = 32768 + (7 : Fin 8).val ∧
    32776 ≤ (32776 : Word).toNat ∧ (∀ r, (edge.readReg r).toNat < 32768) ∧ valOf edge 32768 = some 4 := by decide

theorem witness_LowestInvalidOperandFaults : (Instr.add 7 32775 32776).operands[2]? = some 32776 ∧
    (Instr.add 7 32775 32776).opcode.kinds[2]? = some .value ∧ OperandKind.wordValid .value 32776 = false ∧
    OperandKind.wordValid .dest 7 = true ∧ OperandKind.wordValid .value 32775 = true := by decide

theorem witness_RegisterWritesReduce : (∃ t, exec (.rmem 1 2) (at_ 0 [15, 1, 65535]) = .next t ∧
    t.readReg 1 ≠ (at_ 0 [15, 1, 65535]).readReg 1) ∧ (∀ r, ((at_ 0 [15, 1, 32768]).readReg r).toNat < 32768) ∧
    destOf 1 = some 1 ∧ valOf (at_ 0 [15, 1, 32768]) 2 = some 2 ∧
    ({ at_ 0 [] with inbuf := [32768] } : State).inbuf = 32768 :: [] ∧ (at_ 0 [] 0 0 [32768]).stack = 32768 :: [] ∧
    (2 : Word).toNat ≠ 0 := ⟨⟨_, rfl, by decide⟩, by decide⟩

theorem witness_OnlyTwelveInstrsWriteRegisters : (∃ t, exec (.set 7 9) edge = .next t ∧
    t.readReg 7 ≠ edge.readReg 7) ∧ Opcode.inp ∈ [Opcode.set, .pop, .eq, .gt, .add, .mult, .mod, .and, .or, .not, .rmem, .inp] ∧
    destOf 32775 = some 7 := ⟨⟨_, rfl, by decide⟩, by decide, by decide⟩

theorem witness_AtMostOneEffectOfEachKind : DataInv edge ∧ (∃ t, exec (.set 7 9) edge = .next t ∧
    t.readReg 7 ≠ edge.readReg 7) ∧ ∃ t, exec (.wmem 32767 1) edge = .next t ∧
    Memory.byteAt t.mem 65534 ≠ Memory.byteAt edge.mem 65534 :=
  ⟨edge_dataInv, ⟨_, rfl, by decide⟩, ⟨_, rfl, by decide⟩⟩

theorem witness_PcMovesByLengthOrJump : edge.status = .running ∧ edge.pc.toNat < 32768 ∧
    (∃ t, exec .halt edge = .next t ∧ t.status ≠ .running) ∧ (∃ t, exec .nop edge = .next t ∧ t.status = .running) ∧
    (∃ t, exec (.jt 1 9) edge = .next t ∧ t.status = .running) ∧ (∃ t, exec (.call 9) edge = .next t ∧ t.status = .running) ∧
    ∃ t, exec .ret edge = .next t ∧ t.status = .running :=
  ⟨rfl, by decide, ⟨_, rfl, by decide⟩, ⟨_, rfl, rfl⟩, ⟨_, rfl, rfl⟩, ⟨_, rfl, rfl⟩, ⟨_, rfl, rfl⟩⟩

theorem witness_StepsAreAtomic : (∃ t info, step (at_ 0 [22]) = .next t ∧ t.status = .faulted info) ∧
    (∃ t r, step edge = .next t ∧ t.status = .halted r) ∧ ∃ t, step (at_ 0 [20, 0]) = .next t ∧ t.status = .awaitingInput :=
  ⟨⟨_, _, rfl, rfl⟩, ⟨_, _, rfl, rfl⟩, ⟨_, rfl, rfl⟩⟩

theorem witness_FourOutcomesOfAStep : edge.status = .running ∧ ∃ t, step edge = .next t := ⟨rfl, _, rfl⟩

theorem witness_FaultKindsAndTheirCauses :
    (∃ t info, exec (.add 9 0 0) edge = .next t ∧ t.status = .faulted info ∧ info.cause.kind = .invalidOperand) ∧
    (∃ t info, exec (.pop 0) (at_ 0 []) = .next t ∧ t.status = .faulted info ∧ info.cause.kind = .emptyStackPop) ∧
    (∃ t info, exec (.mod 0 1 0) edge = .next t ∧ t.status = .faulted info ∧ info.cause.kind = .divisionByZero) ∧
    (∃ t info, exec (.push 0) { edge with params := ⟨.atMost 2, defaultOpcodes⟩ } = .next t ∧ t.status = .faulted info ∧
      info.cause.kind = .stackOverflow) :=
  ⟨⟨_, _, rfl, rfl, rfl⟩, ⟨_, _, rfl, rfl, rfl⟩, ⟨_, _, rfl, rfl, rfl⟩, ⟨_, _, rfl, rfl, rfl⟩⟩

theorem witness_FinalStatusesAreFinal : (edge.halt .retEmpty).status = .halted .retEmpty ∧
    (edge.raise .unknownOpcode (some 22)).status = .faulted ⟨.unknownOpcode, 32767, some 22⟩ := by decide

theorem witness_StepKeepsDataInv : DataInv edge ∧ ∃ t, step edge = .next t := ⟨edge_dataInv, _, rfl⟩

theorem witness_StepKeepsControlInv : ControlInv edge ∧ ∃ t, step edge = .next t := ⟨edge_controlInv, _, rfl⟩

theorem witness_HostActionsKeepInvariants : DataInv edge ∧ ControlInv edge := ⟨edge_dataInv, edge_controlInv⟩

theorem witness_StepAlwaysAnswersNext : DataInv edge := edge_dataInv

theorem witness_ReachableStatesAreSound : State.reset.params.Valid ∧
    Reachable State.reset.params (hostAct .start State.reset).1 :=
  ⟨by decide, .host _ _ (.boot [] State.reset test_boot_empty_is_reset)⟩

theorem witness_MemoryReadsLastWrite : Memory.wf edge.mem = true ∧ 32767 < 32768 ∧ 32766 ≠ 32767 := by decide

theorem witness_EqualWordsMeanEqualMemory : Memory.wf (at_ 0 [9]).mem = true ∧
    ∀ addr, addr < 32768 → Memory.read (at_ 0 [9]).mem addr = Memory.read [(0, 9)] addr :=
  ⟨by decide, fun _ _ => rfl⟩

/-- A WMEM that writes the word right after itself. -/
theorem witness_StoreIsSeenByNextFetch : DataInv (at_ 0 [16, 3, 7]) ∧ (at_ 0 [16, 3, 7]).status = .running ∧
    decode (at_ 0 [16, 3, 7]).params.opcodes (at_ 0 [16, 3, 7]).window = .ok (.wmem 3 7, [0]) ∧
    valOf (at_ 0 [16, 3, 7]) 3 = some 3 ∧ valOf (at_ 0 [16, 3, 7]) 7 = some 7 ∧
    ∃ t, step (at_ 0 [16, 3, 7]) = .next t ∧ t.pc = 3 :=
  ⟨at_dataInv _ _ _ _ (by decide) (by decide) (by decide) (by decide), rfl, rfl, rfl, rfl, _, rfl, rfl⟩

theorem witness_HighWordsComeFromTheImage : DataInv (at_ 0 [21, 40000]) ∧ ∃ t, step (at_ 0 [21, 40000]) = .next t ∧
    32768 ≤ (Memory.read t.mem 1).toNat ∧ highNumber.status = .running ∧ highNumber.pc.toNat = 0 ∧
    32768 ≤ (Memory.read highNumber.mem 0).toNat ∧ destOf 1 = some 1 ∧ valOf highNumber 0 = some 0 :=
  ⟨at_dataInv _ _ _ _ (by decide) (by decide) (by decide) (by decide), _, rfl, by decide⟩

theorem witness_LoaderReadsLittleEndianWords : (loadImage [9, 0, 0, 128] = some [(0, 9), (3, 128)]) ∧
    ([9, 0, 0, 128] : List Byte)[2 * 1]? = some 0 ∧ ([9, 0, 0, 128] : List Byte)[2 * 1 + 1]? = some 128 ∧
    ([9, 0, 0, 128] : List Byte).length / 2 ≤ 2 := by decide

theorem witness_ResetGivesEveryValue : bootImage State.reset.params [] = some State.reset ∧ loadImage [] = some [] ∧
    loadImage [9] = none ∧ bootImage State.reset.params [9] = none := by decide

theorem witness_HostActionsActAsSaid : State.reset.status = .ready ∧ edge.status = .running ∧
    edge.suspend.status = .awaitingInput ∧ (edge.halt .halt).status = .halted .halt ∧
    (edge.raise .unknownOpcode none).status = .faulted ⟨.unknownOpcode, 32767, none⟩ := by decide

theorem witness_SuspensionIsExact : ∃ t, step (at_ 0 [20, 0]) = .next t ∧ (at_ 0 [20, 0]).status = .running ∧
    t.status = .awaitingInput := ⟨_, rfl, rfl, rfl⟩

theorem witness_ResumeWithoutInputSuspendsAgain : ControlInv (at_ 0 [20, 0]).suspend ∧
    (at_ 0 [20, 0]).suspend.status = .awaitingInput ∧ (at_ 0 [20, 0]).suspend.inbuf = [] :=
  ⟨⟨fun h => (by cases h), fun _ => ⟨rfl, 0, [0, 0], rfl, by decide⟩, fun h => (by cases h), fun h => (by cases h),
    fun _ h => (by cases h)⟩, rfl, rfl⟩

theorem witness_SkipFlagDoesNotInterfere : edge.setSkip.eraseSkip = edge.eraseSkip ∧ edge.setSkip ≠ edge ∧
    ∃ t, step edge.setSkip = .next t := ⟨by decide, by decide, _, rfl⟩

theorem witness_AppendedInputWaitsItsTurn : edge.status = .running ∧ ∃ t, step edge = .next t ∧
    t.status ≠ .awaitingInput := ⟨rfl, _, rfl, by decide⟩

theorem witness_HostCallHasOneResult : edge.status = .running ∧ CallReturns edge (edge.halt .halt) ∧
    CallGoesOn edge (edge.setSkip.halt .halt) :=
  ⟨rfl, ⟨1, rfl, by decide⟩, .step _ _ (.host .signal _ .begin rfl) rfl rfl⟩

theorem witness_DataAddressOutsideMemoryStops : valOf (at_ 0 [] 32768) 32768 = some 32768 ∧
    32768 ≤ (32768 : Word).toNat ∧ destOf 0 = some 0 ∧ valOf (at_ 0 [] 32768) 1 = some 1 := by decide

end Sys2Proof.Machine.Tests
end

/-! SUPPORT. What an instruction can do to the registers, one rule per shared operation, and from it R15. -/

namespace Sys2Proof.Machine

/-! ### At most one register write -/

/-- A next state answered holds the registers of `s`, or those after one register write, to a register that `P`
admits. -/
def WritesAtMost (P : Fin 8 → Prop) (s : State) (res : Result) : Prop :=
  ∀ t, res = .next t → t.regs = s.regs ∨ ∃ d v, P d ∧ t.regs = (s.writeReg d v).regs

section Rules

variable {P : Fin 8 → Prop} {s t : State} {o : Opcode} {p : Nat} {w a b c : Word}

theorem writesAtMost_next (h : t.regs = s.regs) : WritesAtMost P s (.next t) := by
  rintro _ ⟨⟩
  exact .inl h

theorem writesAtMost_fault (f : Fault) : WritesAtMost P s (.fault f) := nofun

/-- The write that ends all 12 instructions of R15, from a state with the registers of `s`. -/
theorem writesAtMost_write {d : Fin 8} (h : t.regs = s.regs) (hd : P d) (v n : Nat) :
    WritesAtMost P s (.next ((t.writeReg d v).advance n)) := by
  rintro _ ⟨⟩
  exact .inr ⟨d, v, hd, by simp [h]⟩

theorem writesAtMost_withVal {k : Word → Result} (h : ∀ v, WritesAtMost P s (k v)) :
    WritesAtMost P s (withVal o p w s k) := by
  obtain ⟨v, -, hk⟩ | ⟨-, hk⟩ := withVal_cases o p w s k <;> rw [hk]
  · exact h v
  · exact writesAtMost_next rfl

theorem writesAtMost_withDest {k : Fin 8 → Result} (h : ∀ d, destOf w = some d → WritesAtMost P s (k d)) :
    WritesAtMost P s (withDest o p w s k) := by
  obtain ⟨d, hd, hk⟩ | ⟨-, hk⟩ := withDest_cases o p w s k <;> rw [hk]
  · exact h d hd
  · exact writesAtMost_next rfl

theorem writesAtMost_withDestVal {k : Fin 8 → Word → Result}
    (h : ∀ d v, destOf a = some d → WritesAtMost P s (k d v)) : WritesAtMost P s (withDestVal o a b s k) :=
  writesAtMost_withDest fun d hd => writesAtMost_withVal fun v => h d v hd

theorem writesAtMost_withDestValVal {k : Fin 8 → Word → Word → Result}
    (h : ∀ d u v, destOf a = some d → WritesAtMost P s (k d u v)) : WritesAtMost P s (withDestValVal o a b c s k) :=
  writesAtMost_withDest fun d hd => writesAtMost_withVal fun u => writesAtMost_withVal fun v => h d u v hd

theorem writesAtMost_withValVal {k : Word → Word → Result} (h : ∀ u v, WritesAtMost P s (k u v)) :
    WritesAtMost P s (withValVal o a b s k) :=
  writesAtMost_withVal fun u => writesAtMost_withVal fun v => h u v

theorem writesAtMost_withPush {v : Word} {k : State → Result}
    (h : ∀ s', s'.regs = s.regs → WritesAtMost P s (k s')) : WritesAtMost P s (withPush o v s k) := by
  obtain ⟨-, hk⟩ | ⟨-, hk⟩ := withPush_cases o v s k <;> rw [hk]
  · exact writesAtMost_next rfl
  · exact h _ rfl

theorem writesAtMost_withPop {e : Result} {k : Word → State → Result} (he : WritesAtMost P s e)
    (h : ∀ v s', s'.regs = s.regs → WritesAtMost P s (k v s')) : WritesAtMost P s (withPop s e k) := by
  obtain ⟨-, hk⟩ | ⟨v, rest, -, hk⟩ := withPop_cases s e k <;> rw [hk]
  · exact he
  · exact h v _ rfl

theorem writesAtMost_withInput {e : Result} {k : Word → State → Result} (he : WritesAtMost P s e)
    (h : ∀ v s', s'.regs = s.regs → WritesAtMost P s (k v s')) : WritesAtMost P s (withInput s e k) := by
  obtain ⟨-, hk⟩ | ⟨v, rest, -, hk⟩ := withInput_cases s e k <;> rw [hk]
  · exact he
  · exact h v _ rfl

theorem writesAtMost_withLoad {addr : Nat} {k : Word → Result} (h : ∀ v, WritesAtMost P s (k v)) :
    WritesAtMost P s (withLoad addr s k) := by
  obtain ⟨-, hk⟩ | ⟨-, hk⟩ := withLoad_cases addr s k <;> rw [hk]
  · exact h _
  · exact writesAtMost_fault _

theorem writesAtMost_withStore {addr : Nat} {v : Word} {k : State → Result}
    (h : ∀ s', s'.regs = s.regs → WritesAtMost P s (k s')) : WritesAtMost P s (withStore addr v s k) := by
  obtain ⟨-, hk⟩ | ⟨-, hk⟩ := withStore_cases addr v s k <;> rw [hk]
  · exact h _ rfl
  · exact writesAtMost_fault _

end Rules

/-! ### Which instructions write, and where -/

/-- The 12 mnemonics that R15 names. -/
abbrev registerWriters : List Opcode :=
  [.set, .pop, .eq, .gt, .add, .mult, .mod, .and, .or, .not, .rmem, .inp]

/-- R15's condition for `i` to write register `r`: a mnemonic it names, and `r` what the first operand names. -/
def MayWrite (i : Instr) (r : Fin 8) : Prop :=
  i.opcode ∈ registerWriters ∧ ∃ w, i.operands.head? = some w ∧ destOf w = some r

theorem mayWrite_of_head {i : Instr} {w : Word} {d : Fin 8} (hi : decide (i.opcode ∈ registerWriters) = true)
    (hw : i.operands.head? = some w) (hd : destOf w = some d) : MayWrite i d :=
  ⟨of_decide_eq_true hi, w, hw, hd⟩

/-- What running an instruction can do to the registers (R15). -/
theorem exec_writesAtMost (i : Instr) (s : State) : WritesAtMost (MayWrite i) s (exec i s) := by
  cases i with
  | halt => exact writesAtMost_next rfl
  | nop => exact writesAtMost_next rfl
  | jmp => exact writesAtMost_withVal fun _ => writesAtMost_next rfl
  | out => exact writesAtMost_withVal fun _ => writesAtMost_next rfl
  | jt => exact writesAtMost_withValVal fun _ _ => writesAtMost_next (by split <;> rfl)
  | jf => exact writesAtMost_withValVal fun _ _ => writesAtMost_next (by split <;> rfl)
  | push => exact writesAtMost_withVal fun _ => writesAtMost_withPush fun _ h => writesAtMost_next (by simp [h])
  | call => exact writesAtMost_withVal fun _ => writesAtMost_withPush fun _ h => writesAtMost_next (by simp [h])
  | ret => exact writesAtMost_withPop (writesAtMost_next (by rfl)) fun _ _ h => writesAtMost_next (by simp [h])
  | wmem => exact writesAtMost_withValVal fun _ _ => writesAtMost_withStore fun _ h => writesAtMost_next (by simp [h])
  | set | not =>
    exact writesAtMost_withDestVal fun _ _ hd => writesAtMost_write rfl (mayWrite_of_head rfl rfl hd) _ _
  | eq | gt | add | mult | and | or =>
    exact writesAtMost_withDestValVal fun _ _ _ hd => writesAtMost_write rfl (mayWrite_of_head rfl rfl hd) _ _
  | mod =>
    refine writesAtMost_withDestValVal fun _ _ v hd => ?_
    split
    · exact writesAtMost_next rfl
    · exact writesAtMost_write rfl (mayWrite_of_head rfl rfl hd) _ _
  | rmem =>
    exact writesAtMost_withDestVal fun _ _ hd => writesAtMost_withLoad fun _ =>
      writesAtMost_write rfl (mayWrite_of_head rfl rfl hd) _ _
  | pop =>
    exact writesAtMost_withDest fun _ hd => writesAtMost_withPop (writesAtMost_next rfl) fun _ _ h =>
      writesAtMost_write h (mayWrite_of_head rfl rfl hd) _ _
  | inp =>
    exact writesAtMost_withDest fun _ hd => writesAtMost_withInput (writesAtMost_next rfl) fun _ _ h =>
      writesAtMost_write h (mayWrite_of_head rfl rfl hd) _ _

theorem State.readReg_congr {s t : State} (h : t.regs = s.regs) (r : Fin 8) : t.readReg r = s.readReg r := by
  rw [State.readReg, h, State.readReg]

/-- A register whose value has changed is one that `P` admits. -/
theorem WritesAtMost.of_readReg_ne {P : Fin 8 → Prop} {s t : State} {res : Result} {r : Fin 8}
    (h : WritesAtMost P s res) (ht : res = .next t) (hr : t.readReg r ≠ s.readReg r) : P r := by
  obtain hregs | ⟨d, v, hd, hregs⟩ := h t ht
  · exact absurd (State.readReg_congr hregs r) hr
  · have hrd : r = d := by
      by_contra hne
      exact hr ((State.readReg_congr hregs r).trans (s.readReg_writeReg_other d v r hne))
    exact hrd ▸ hd

/-! ### Each of the 12 does write -/

/-- A state on which each of the 12 instructions, with the value operands 3 and 2, leaves something other than 9:
9 in every register, and 0 in memory, on the stack and in the input buffer. -/
def ninesState : State :=
  { State.reset with regs := .replicate 8 9, stack := [0], inbuf := [0], status := .running }

theorem readReg_ninesState (r : Fin 8) : ninesState.readReg r = 9 := by
  simp [State.readReg, ninesState]

/-- On `ninesState` each of the 12 instructions ends in a write of a number that is not 9 modulo 32768. -/
theorem exec_toInstr_ninesState {o : Opcode} {w : Word} {r : Fin 8} (ho : o ∈ registerWriters)
    (hd : destOf w = some r) : ∃ s n len,
      exec (o.toInstr w 3 2) ninesState = .next ((State.writeReg r n s).advance len) ∧ n % 32768 ≠ 9 := by
  cases o with
  | halt | push | jmp | jt | jf | wmem | call | ret | out | nop => exact absurd ho (by decide)
  | set | not | rmem => exact ⟨ninesState, _, _, (withDestVal_some hd rfl).trans rfl, by decide⟩
  | eq | gt | add | mult | mod | and | or =>
    exact ⟨ninesState, _, _, (withDestValVal_some hd rfl rfl).trans rfl, by decide⟩
  | pop => exact ⟨{ ninesState with stack := [] }, _, _, (withDest_some hd).trans rfl, by decide⟩
  | inp => exact ⟨{ ninesState with inbuf := [] }, _, _, (withDest_some hd).trans rfl, by decide⟩

theorem head?_operands_toInstr {o : Opcode} (ho : o ∈ registerWriters) (w₁ w₂ w₃ : Word) :
    (o.toInstr w₁ w₂ w₃).operands.head? = some w₁ := by
  have harity : o.arity ≠ 0 := by revert o; decide
  rw [o.operands_toInstr, List.head?_take, if_neg harity, List.head?_cons]

/-- Settles O35: one direction is the inversion of `exec`, the other the 12 runs from `ninesState`. -/
theorem onlyTwelveInstrsWriteRegisters : Obligations.OnlyTwelveInstrsWriteRegisters := by
  refine ⟨fun i s t r ht hr => (exec_writesAtMost i s).of_readReg_ne ht hr, fun o w r ho hd => ?_⟩
  obtain ⟨s, n, len, hexec, hn⟩ := exec_toInstr_ninesState ho hd
  refine ⟨o.toInstr w 3 2, ninesState, _, o.opcode_toInstr w 3 2, head?_operands_toInstr ho w 3 2, hexec,
    fun h => hn ?_⟩
  calc n % 32768 = (((State.writeReg r n s).advance len).readReg r).toNat := by
        rw [State.advance_readReg, State.toNat_readReg_writeReg_same]
    _ = 9 := by rw [h, readReg_ninesState]; rfl

end Sys2Proof.Machine

/-! SUPPORT. What a successful decoding says of the words, and where memory holds them, and from it R46. -/

namespace Sys2Proof

/-! ### The words of a decoded instruction -/

theorem Opcode.arity_le_three (o : Opcode) : o.arity ≤ 3 := by
  cases o <;> decide

/-- The words read by position, up to a count that the list has, are the front of the list: no default is read. -/
theorem take_getD_eq_take {ws : List Word} {n : Nat} (h3 : n ≤ 3) (hn : n ≤ ws.length) :
    [ws.getD 0 0, ws.getD 1 0, ws.getD 2 0].take n = ws.take n := by
  refine List.ext_getElem (by simp; omega) fun k hk hk' => ?_
  have hkn : k < n := by simp at hk; omega
  have hk3 : k = 0 ∨ k = 1 ∨ k = 2 := by omega
  obtain rfl | rfl | rfl := hk3 <;> simp [List.getElem?_eq_getElem (hkn.trans_le hn)]

/-- The operands of the instruction that the decoder builds are the words after the opcode word, as many as its
arity. -/
theorem Opcode.operands_toInstr_getD (o : Opcode) {ws : List Word} (h : o.arity ≤ ws.length) :
    (o.toInstr (ws.getD 0 0) (ws.getD 1 0) (ws.getD 2 0)).operands = ws.take o.arity := by
  rw [o.operands_toInstr, take_getD_eq_take o.arity_le_three h]

theorem Instr.length_operands (i : Instr) : i.operands.length = i.opcode.arity := by
  cases i <;> rfl

/-- Words that decode are the encoding of the instruction, then the rest. -/
theorem encode_append_of_decode {m : OpcodeMap} {ws rest : List Word} {i : Instr}
    (h : decode m ws = .ok (i, rest)) : encode m i ++ rest = ws := by
  obtain ⟨-, he⟩ | ⟨w, tl, -, -, he⟩ | ⟨w, tl, o, -, -, -, he⟩ | ⟨w, tl, o, rfl, hfind, hlen, hok⟩ :=
    decode_cases m ws
  · cases he.symm.trans h
  · cases he.symm.trans h
  · cases he.symm.trans h
  · cases hok.symm.trans h
    rw [encode, o.opcode_toInstr, o.operands_toInstr_getD hlen, OpcodeMap.number_of_find hfind, List.cons_append,
      List.take_append_drop]

/-- The arities of R48's formats. -/
theorem Opcode.arity_eq_iff (o : Opcode) :
    (o.arity = 0 ↔ o ∈ [Opcode.halt, .ret, .nop]) ∧
    (o.arity = 1 ↔ o ∈ [Opcode.push, .pop, .jmp, .call, .out, .inp]) ∧
    (o.arity = 2 ↔ o ∈ [Opcode.set, .jt, .jf, .not, .rmem, .wmem]) ∧
    (o.arity = 3 ↔ o ∈ [Opcode.eq, .gt, .add, .mult, .mod, .and, .or]) := by
  cases o <;> decide

namespace Machine

/-! ### Where memory holds them -/

theorem fetch_eq_some_iff {m : Memory} {addr : Nat} {w : Word} :
    fetch m addr = some w ↔ addr < 32768 ∧ Memory.read m addr = w := by
  simp [fetch]

/-- Of the words fetched at consecutive addresses, the one at index `n` is the word at the `n`-th address: memory ends
once, so an address that has no word is followed by none that has one. -/
theorem fetch_of_getElem?_filterMap {m : Memory} {count addr n : Nat} {w : Word}
    (h : ((List.range' addr count).filterMap (fetch m))[n]? = some w) : fetch m (addr + n) = some w := by
  induction count generalizing addr n with
  | zero => simp at h
  | succ count ih =>
    rw [List.range'_succ] at h
    by_cases ha : addr < 32768
    · rw [List.filterMap_cons_some (fetch_inRange ha)] at h
      cases n with
      | zero => exact (fetch_inRange ha).trans h
      | succ n => simpa [Nat.add_assoc, Nat.add_comm 1] using ih h
    · rw [List.filterMap_cons_none (fetch_outOfRange (by omega))] at h
      have hbeyond : fetch m (addr + 1 + n) = none := fetch_outOfRange (by omega)
      cases hbeyond.symm.trans (ih h)

/-- The word at index `n` of the window is in memory at `pc + n`. -/
theorem State.read_of_window {s : State} {n : Nat} {w : Word} (h : s.window[n]? = some w) :
    s.pc.toNat + n < 32768 ∧ Memory.read s.mem (s.pc.toNat + n) = w :=
  fetch_eq_some_iff.mp (fetch_of_getElem?_filterMap (count := 4) h)

/-- Settles O25: decoding loses no word, so the window's first words are the instruction's, and the window is memory
from `pc` on. -/
theorem encodeInvertsDecode : Obligations.EncodeInvertsDecode := by
  refine ⟨fun m ws i rest h => ?_, Opcode.arity_eq_iff, fun s i rest h => ?_⟩
  · have hws := encode_append_of_decode h
    exact ⟨hws, hws.symm, i.length_operands⟩
  · have hwin : s.window = s.params.opcodes.number i.opcode :: (i.operands ++ rest) :=
      (encode_append_of_decode h).symm
    have hhead : s.window[0]? = some (s.params.opcodes.number i.opcode) := by simp [hwin]
    obtain ⟨hpc, hread⟩ := State.read_of_window hhead
    refine ⟨hpc, hread, fun n w hn => State.read_of_window ?_⟩
    obtain ⟨hlt, -⟩ := List.getElem?_eq_some_iff.mp hn
    rw [hwin, List.getElem?_cons_succ, List.getElem?_append_left hlt, hn]

end Machine
end Sys2Proof

/-! SUPPORT. The decoder's answer in each of its cases, the fault each failing case takes, and from them R51, R61, R63,
R104. -/

namespace Sys2Proof

/-! ### The decoder, case by case -/

theorem decode_of_find_none {m : OpcodeMap} {w : Word} (h : m.find w = none) (ws : List Word) :
    decode m (w :: ws) = .error (.unknownOpcode w) := by
  simp [decode, h]

theorem decode_of_short {m : OpcodeMap} {w : Word} {o : Opcode} {ws : List Word} (h : m.find w = some o)
    (hl : ws.length < o.arity) : decode m (w :: ws) = .error (.missingOperand w (ws.length + 1)) := by
  simp [decode, h, hl]

theorem decode_of_find_some {m : OpcodeMap} {w : Word} {o : Opcode} {ws : List Word} (h : m.find w = some o)
    (hl : o.arity ≤ ws.length) :
    decode m (w :: ws) = .ok (o.toInstr (ws.getD 0 0) (ws.getD 1 0) (ws.getD 2 0), ws.drop o.arity) := by
  simp [decode, h, Nat.not_lt.mpr hl]

/-- An instruction is rebuilt from its mnemonic and its operands, whatever words stand behind them. -/
theorem Instr.toInstr_getD_operands (i : Instr) (ws : List Word) :
    i.opcode.toInstr ((i.operands ++ ws).getD 0 0) ((i.operands ++ ws).getD 1 0) ((i.operands ++ ws).getD 2 0) = i := by
  cases i <;> rfl

/-- Settles O24: the map finds the mnemonic back by injectivity, and the operands are the first words after it. -/
theorem decodeInvertsEncode : Obligations.DecodeInvertsEncode := by
  intro m hm i rest
  refine ⟨fun hlow => ?_, fun hhigh => decode_of_find_none (m.find_high hhigh) _⟩
  have hlen : i.opcode.arity ≤ (i.operands ++ rest).length := by simp [i.length_operands]
  have hdrop : (i.operands ++ rest).drop i.opcode.arity = rest := List.drop_left' i.length_operands
  rw [encode, List.cons_append, decode_of_find_some (OpcodeMap.find_number hm _ hlow) hlen,
    i.toInstr_getD_operands, hdrop]

/-- Settles O23: each list is decoded as written. -/
theorem writtenWordsDecode : Obligations.WrittenWordsDecode :=
  ⟨rfl, rfl, rfl, rfl, rfl, rfl, rfl⟩

theorem toNat_defaultOpcodes_number (o : Opcode) : (defaultOpcodes.number o).toNat = o.row.val := by
  cases o <;> rfl

/-- Every row of the table has its mnemonic. -/
theorem Opcode.exists_row_eq (n : Fin 22) : ∃ o : Opcode, o.row = n :=
  ⟨Opcode.all[n.val]'n.isLt, by revert n; decide⟩

theorem find_defaultOpcodes_iff {w : Word} {o : Opcode} : defaultOpcodes.find w = some o ↔ w.toNat = o.row.val := by
  constructor
  · intro h
    rw [← OpcodeMap.number_of_find h, toNat_defaultOpcodes_number]
  · intro h
    have hw : defaultOpcodes.number o = w := BitVec.eq_of_toNat_eq ((toNat_defaultOpcodes_number o).trans h.symm)
    rw [← hw]
    exact OpcodeMap.find_number defaultOpcodes_injective o (defaultOpcodes_low o)

/-- Settles O26: the number of a mnemonic is its row, and the rows are all the numbers below 22. -/
theorem defaultMapIsRowIndex : Obligations.DefaultMapIsRowIndex := by
  refine fun w => ⟨fun o => find_defaultOpcodes_iff, ?_⟩
  constructor
  · intro hnone
    by_contra hlt
    obtain ⟨o, ho⟩ := Opcode.exists_row_eq ⟨w.toNat, by omega⟩
    have hsome : defaultOpcodes.find w = some o := find_defaultOpcodes_iff.mpr (by rw [ho])
    cases hnone.symm.trans hsome
  · intro hge
    cases hfind : defaultOpcodes.find w with
    | none => rfl
    | some o =>
      have hrow := find_defaultOpcodes_iff.mp hfind
      omega

namespace Machine

/-! ### Steps whose words are no instruction -/

theorem step_of_decode_ok {s : State} {i : Instr} {rest : List Word} (hs : s.status = .running)
    (h : decode s.params.opcodes s.window = .ok (i, rest)) : step s = exec i s := by
  rw [step_of_running hs, runInstr, fetchInstr_ok h]

theorem step_of_decode_error {s : State} {e : DecodeError} (hs : s.status = .running)
    (h : decode s.params.opcodes s.window = .error e) : step s = .next (s.raiseDecode e) := by
  rw [step_of_running hs, runInstr, fetchInstr_error h]

/-- No opcode word is fetched from 32768 on (R61). -/
theorem step_of_pc_outside {s : State} (hs : s.status = .running) (hpc : 32768 ≤ s.pc.toNat) :
    step s = .next (s.faultedBy (.fetchOutOfRange none s.pc.toNat) none) :=
  step_of_decode_error (e := .noOpcode) hs (by rw [(State.window_eq_nil_iff s).mpr hpc]; rfl)

/-- An opcode word that the map does not find takes UnknownOpcode (R104). -/
theorem step_of_unknown {s : State} (hs : s.status = .running) (hpc : s.pc.toNat < 32768)
    (hfind : s.params.opcodes.find (Memory.read s.mem s.pc.toNat) = none) :
    step s = .next (s.faultedBy .unknownOpcode (some (Memory.read s.mem s.pc.toNat))) :=
  step_of_decode_error (e := .unknownOpcode _) hs (by rw [State.window_cons s hpc, decode_of_find_none hfind])

/-- An operand word at 32768 is not there: the window has as many operand words as memory has after `pc` (R63). -/
theorem step_of_missing {s : State} {o : Opcode} {n : Nat} (hs : s.status = .running) (hpc : s.pc.toNat < 32768)
    (hfind : s.params.opcodes.find (Memory.read s.mem s.pc.toNat) = some o) (hn : n ≤ o.arity)
    (hend : s.pc.toNat + n = 32768) :
    step s = .next (s.faultedBy (.fetchOutOfRange (some n) 32768) (some (Memory.read s.mem s.pc.toNat))) := by
  have harity := o.arity_le_three
  have hlen := State.window_length s hpc
  have hcons := State.window_cons s hpc
  generalize [s.pc.toNat + 1, s.pc.toNat + 2, s.pc.toNat + 3].filterMap (fetch s.mem) = ws at hcons
  rw [hcons, List.length_cons] at hlen
  have hws : ws.length + 1 = n := by omega
  rw [step_of_decode_error hs (by rw [hcons, decode_of_short hfind (by omega)]), State.raiseDecode, hws, hend]
  rfl

/-- Settles O29: the fetch by its bound, and the two steps that the fetch ends. -/
theorem fetchOutOfRangeFaults : Obligations.FetchOutOfRangeFaults :=
  ⟨fun _ _ => ⟨fetch_inRange, fetch_outOfRange⟩, fun _ hs => ⟨step_of_pc_outside hs,
    fun _ _ hpc hfind _ hn hend => step_of_missing hs hpc hfind hn hend⟩⟩

/-- Settles O30: the map finds nothing for exactly these words. -/
theorem unknownOpcodeFaults : Obligations.UnknownOpcodeFaults :=
  fun _ hs hpc hw => step_of_unknown hs hpc (OpcodeMap.find_eq_none_iff.mpr hw)

/-- Settles O27. -/
theorem stepRunsDecodedInstr : Obligations.StepRunsDecodedInstr :=
  fun _ _ _ hs h => step_of_decode_ok hs h

/-- Settles O28. -/
theorem stepIsIdleUnlessRunning : Obligations.StepIsIdleUnlessRunning :=
  fun _ hs => step_of_not_running hs

end Machine
end Sys2Proof

/-! SUPPORT. Words over bytes: what a write does to every word, when two memories are the same data, and what the loader
puts where; from them R32, R34 and R35. -/

namespace Sys2Proof.Machine

/-! ### Reading words -/

theorem toNat_wordOfBytes (lo hi : Byte) : (wordOfBytes lo hi).toNat = lo.toNat + 256 * hi.toNat := by
  have := lo.isLt
  have := hi.isLt
  rw [wordOfBytes, BitVec.toNat_ofNat]
  omega

/-- A word determines its bytes. -/
theorem wordOfBytes_inj {lo hi lo' hi' : Byte} (h : wordOfBytes lo hi = wordOfBytes lo' hi') : lo = lo' ∧ hi = hi' := by
  have hnat := congrArg BitVec.toNat h
  rw [toNat_wordOfBytes, toNat_wordOfBytes] at hnat
  have := lo.isLt
  have := lo'.isLt
  exact ⟨BitVec.eq_of_toNat_eq (by omega), BitVec.eq_of_toNat_eq (by omega)⟩

/-- The word just written is read back (R34, R35). -/
theorem Memory.read_write_same {m : Memory} {addr : Nat} (v : Word) (h : Memory.wf m = true) (ha : addr < 32768) :
    Memory.read (Memory.write m addr v) addr = v := by
  rw [Memory.read, Memory.byteAt_write m addr v h ha, Memory.byteAt_write m addr v h ha, if_neg (by omega), if_pos rfl,
    if_pos rfl, wordOfBytes_low_high]

/-- A byte of another word is as it was before the write. -/
theorem Memory.byteAt_write_other {m : Memory} {addr x : Nat} (v : Word) (h : Memory.wf m = true) (ha : addr < 32768)
    (hx : x / 2 ≠ addr) : Memory.byteAt (Memory.write m addr v) x = Memory.byteAt m x := by
  rw [Memory.byteAt_write m addr v h ha, if_neg (by omega), if_neg (by omega)]

theorem Memory.read_write_other {m : Memory} {addr addr' : Nat} (v : Word) (h : Memory.wf m = true)
    (ha : addr < 32768) (hne : addr' ≠ addr) :
    Memory.read (Memory.write m addr v) addr' = Memory.read m addr' := by
  rw [Memory.read, Memory.byteAt_write_other v h ha (by omega), Memory.byteAt_write_other v h ha (by omega),
    Memory.read]

/-- Settles O48. -/
theorem memoryReadsLastWrite : Obligations.MemoryReadsLastWrite :=
  fun m addr v h ha => ⟨Memory.read_write_same v h ha, fun _ => Memory.read_write_other v h ha,
    Memory.wf_write m addr v h ha⟩

/-! ### Memories that agree on every word -/

/-- The first cell of a memory in canonical form: its key is one that may stand there, its byte is listed with reason,
and the cells after it have higher keys. -/
theorem Memory.wfFrom_cons {low k : Nat} {b : Byte} {m : Memory} (h : Memory.wfFrom low ((k, b) :: m) = true) :
    low ≤ k ∧ k < 65536 ∧ b ≠ Memory.unlisted ∧ Memory.wfFrom (k + 1) m = true := by
  simpa [Memory.wfFrom, and_assoc] using h

theorem Memory.byteAt_cons_same (k : Nat) (b : Byte) (m : Memory) : Memory.byteAt ((k, b) :: m) k = b := by
  simp [Memory.byteAt]

theorem Memory.byteAt_cons_other {k x : Nat} (b : Byte) (m : Memory) (h : x ≠ k) :
    Memory.byteAt ((k, b) :: m) x = Memory.byteAt m x := by
  simp [Memory.byteAt, h]

/-- If all bytes agree, a first cell has no higher key than the first cell of the other memory: the other memory would
read as zero there. -/
theorem Memory.key_le_of_byteAt_eq {low k k' : Nat} {b b' : Byte} {m m' : Memory}
    (h : Memory.wfFrom low ((k, b) :: m) = true) (h' : Memory.wfFrom low ((k', b') :: m') = true)
    (heq : ∀ x, x < 65536 → Memory.byteAt ((k, b) :: m) x = Memory.byteAt ((k', b') :: m') x) : k' ≤ k := by
  obtain ⟨-, hk, hb, -⟩ := Memory.wfFrom_cons h
  obtain ⟨-, hk', hb', hm'⟩ := Memory.wfFrom_cons h'
  by_contra hlt
  have hzero : Memory.byteAt ((k', b') :: m') k = Memory.unlisted := by
    rw [Memory.byteAt_cons_other b' m' (by omega)]
    exact Memory.byteAt_below m' (k' + 1) k hm' (by omega)
  rw [← heq k hk, Memory.byteAt_cons_same] at hzero
  exact hb hzero

/-- A memory in canonical form that reads as zero everywhere lists no byte. -/
theorem Memory.eq_nil_of_byteAt {low : Nat} {m : Memory} (h : Memory.wfFrom low m = true)
    (heq : ∀ x, x < 65536 → Memory.byteAt m x = Memory.unlisted) : m = [] := by
  cases m with
  | nil => rfl
  | cons c m =>
    obtain ⟨-, hk, hb, -⟩ := Memory.wfFrom_cons h
    exact absurd ((Memory.byteAt_cons_same c.1 c.2 m).symm.trans (heq c.1 hk)) hb

/-- The canonical form is canonical: memories that read the same at every key are the same list of cells. -/
theorem Memory.eq_of_byteAt_eq {low : Nat} {m m' : Memory} (h : Memory.wfFrom low m = true)
    (h' : Memory.wfFrom low m' = true) (heq : ∀ x, x < 65536 → Memory.byteAt m x = Memory.byteAt m' x) : m = m' := by
  induction m generalizing low m' with
  | nil => exact (Memory.eq_nil_of_byteAt h' fun x hx => (heq x hx).symm).symm
  | cons c m ih =>
    obtain ⟨k, b⟩ := c
    cases m' with
    | nil => exact Memory.eq_nil_of_byteAt h heq
    | cons c' m' =>
      obtain ⟨k', b'⟩ := c'
      obtain rfl : k = k' := Nat.le_antisymm (Memory.key_le_of_byteAt_eq h' h fun x hx => (heq x hx).symm)
        (Memory.key_le_of_byteAt_eq h h' heq)
      obtain ⟨-, hk, -, hm⟩ := Memory.wfFrom_cons h
      obtain ⟨-, -, -, hm'⟩ := Memory.wfFrom_cons h'
      have hb : b = b' := by simpa only [Memory.byteAt_cons_same] using heq k hk
      rw [hb, ih hm hm' fun x hx => ?_]
      by_cases hxk : x = k
      · rw [hxk, Memory.byteAt_below m (k + 1) k hm (by omega), Memory.byteAt_below m' (k + 1) k hm' (by omega)]
      · simpa only [Memory.byteAt_cons_other _ _ hxk] using heq x hx

/-- Words that agree have bytes that agree. -/
theorem Memory.byteAt_eq_of_read_eq {m m' : Memory} {x : Nat}
    (h : Memory.read m (x / 2) = Memory.read m' (x / 2)) : Memory.byteAt m x = Memory.byteAt m' x := by
  obtain ⟨hlow, hhigh⟩ := wordOfBytes_inj h
  obtain hx | hx : x = 2 * (x / 2) ∨ x = 2 * (x / 2) + 1 := by omega
  · rw [hx]; exact hlow
  · rw [hx]; exact hhigh

/-- Settles O49: the words give the bytes, and the bytes the cells. -/
theorem equalWordsMeanEqualMemory : Obligations.EqualWordsMeanEqualMemory :=
  fun _ _ h h' heq => Memory.eq_of_byteAt_eq h h' fun x hx =>
    Memory.byteAt_eq_of_read_eq (heq (x / 2) (by omega))

/-! ### The loader -/

theorem loadImage_eq_none_iff (image : List Byte) :
    loadImage image = none ↔ image.length % 2 = 1 ∨ 32768 < image.length / 2 := by
  rw [loadImage, ite_eq_right_iff]
  simp only [reduceCtorEq, imp_false]
  omega

/-- A loaded byte is the image's, or zero beyond it. -/
theorem byteAt_of_loadImage {image : List Byte} {m : Memory} (h : loadImage image = some m) (x : Nat) :
    Memory.byteAt m x = image.getD x 0 := by
  unfold loadImage at h
  split at h
  · cases h
    simpa using byteAt_imageCells 0 image (by omega) x
  · cases h

/-- Settles O52: every word of the loaded memory is a byte pair of the image or of the zeros beyond it. -/
theorem loaderReadsLittleEndianWords : Obligations.LoaderReadsLittleEndianWords := by
  refine fun image => ⟨loadImage_eq_none_iff image, fun m hm => ⟨fun i lo hi hlo hhi => ?_, fun i hi _ => ?_⟩⟩
  · rw [Memory.read, toNat_wordOfBytes, byteAt_of_loadImage hm, byteAt_of_loadImage hm, List.getD_eq_getElem?_getD,
      List.getD_eq_getElem?_getD, hlo, hhi]
    rfl
  · have heven : ¬ image.length % 2 = 1 := fun hodd => by
      cases hm.symm.trans ((loadImage_eq_none_iff image).mpr (.inl hodd))
    rw [Memory.read, byteAt_of_loadImage hm, byteAt_of_loadImage hm, List.getD_eq_default _ _ (by omega),
      List.getD_eq_default _ _ (by omega)]
    rfl

end Sys2Proof.Machine

/-! SUPPORT. When the operands of an instruction resolve, and what it does when they do not: R52, R53, R64 to R66, and
the faults common to all instructions. -/

namespace Sys2Proof.Machine

/-! ### The resolvers -/

/-- Settles O31. -/
theorem valResolvesOperands : Obligations.ValResolvesOperands := by
  refine fun s w => ⟨valOf_literal s w, fun r hr => ?_, fun hw => ?_, fun hregs v => valOf_lt hregs⟩
  · have hword : (⟨w.toNat - 32768, by omega⟩ : Fin 8) = r := Fin.ext (by simp [hr])
    rw [valOf_register s w (by omega) (by omega), hword]
  · rw [valOf_eq_none_iff, valueWordValid, decide_eq_false_iff_not]
    omega

/-- Settles O32. -/
theorem destResolvesRegisters : Obligations.DestResolvesRegisters := by
  refine fun w => ⟨fun d => by rw [destOf_eq_some_iff, eq_comm], ?_⟩
  rw [destOf_eq_none_iff, destWordValid, decide_eq_false_iff_not, Nat.not_lt]

theorem exists_valOf {w : Word} (s : State) (h : OperandKind.wordValid .value w = true) : ∃ v, valOf s w = some v := by
  refine Option.ne_none_iff_exists'.mp fun hnone => ?_
  cases h.symm.trans ((valOf_eq_none_iff s w).mp hnone)

theorem exists_destOf {w : Word} (h : OperandKind.wordValid .dest w = true) : ∃ d, destOf w = some d := by
  refine Option.ne_none_iff_exists'.mp fun hnone => ?_
  cases h.symm.trans ((destOf_eq_none_iff w).mp hnone)

/-! ### The lowest invalid operand -/

theorem firstInvalidFrom_valid {k : OperandKind} {w : Word} (h : k.wordValid w = true) (p : Nat)
    (ks : List OperandKind) (ws : List Word) :
    firstInvalidFrom p (k :: ks) (w :: ws) = firstInvalidFrom (p + 1) ks ws := by
  simp [firstInvalidFrom, h]

theorem firstInvalidFrom_invalid {k : OperandKind} {w : Word} (h : k.wordValid w = false) (p : Nat)
    (ks : List OperandKind) (ws : List Word) : firstInvalidFrom p (k :: ks) (w :: ws) = some (p, w) := by
  simp [firstInvalidFrom, h]

/-- The operand at index `n` is reported, at position `p + n`, if it is invalid and those before it are valid. -/
theorem firstInvalidFrom_eq_some {p n : Nat} {ks : List OperandKind} {ws : List Word} {k : OperandKind} {w : Word}
    (hw : ws[n]? = some w) (hk : ks[n]? = some k) (hinvalid : k.wordValid w = false)
    (hvalid : ∀ n' w' k', n' < n → ws[n']? = some w' → ks[n']? = some k' → k'.wordValid w' = true) :
    firstInvalidFrom p ks ws = some (p + n, w) := by
  induction n generalizing p ks ws with
  | zero =>
    obtain ⟨ks, rfl⟩ : ∃ l, ks = k :: l := by cases ks <;> simp_all
    obtain ⟨ws, rfl⟩ : ∃ l, ws = w :: l := by cases ws <;> simp_all
    exact firstInvalidFrom_invalid hinvalid p ks ws
  | succ n ih =>
    cases ks with
    | nil => cases hk
    | cons k₀ ks =>
      cases ws with
      | nil => cases hw
      | cons w₀ ws =>
        rw [firstInvalidFrom_valid (hvalid 0 w₀ k₀ (by omega) rfl rfl),
          ih hw hk fun n' w' k' hn' => hvalid (n' + 1) w' k' (by omega), Nat.add_assoc, Nat.add_comm 1]

section Resolving

variable {s : State} {o : Opcode} {p q : Nat} {w x a b c : Word} {ks : List OperandKind} {ws : List Word}

/-- What an instruction answers for an invalid operand word `x` at position `q` (R66). -/
abbrev FaultsAt (o : Opcode) (q : Nat) (x : Word) (s : State) (res : Result) : Prop :=
  res = .next (s.raiseOperand o q x)

/-- A value operand is the first invalid one, or it resolves and the first invalid one is behind it. -/
theorem faultsAt_withVal {k : Word → Result} (h : firstInvalidFrom p (.value :: ks) (w :: ws) = some (q, x))
    (hk : ∀ v, firstInvalidFrom (p + 1) ks ws = some (q, x) → FaultsAt o q x s (k v)) :
    FaultsAt o q x s (withVal o p w s k) := by
  cases hw : OperandKind.wordValid .value w with
  | false =>
    rw [firstInvalidFrom_invalid hw] at h
    cases h
    exact withVal_none ((valOf_eq_none_iff s w).mpr hw)
  | true =>
    rw [firstInvalidFrom_valid hw] at h
    obtain ⟨v, hv⟩ := exists_valOf s hw
    exact (withVal_some hv).trans (hk v h)

/-- The same for a destination operand. -/
theorem faultsAt_withDest {k : Fin 8 → Result} (h : firstInvalidFrom p (.dest :: ks) (w :: ws) = some (q, x))
    (hk : ∀ d, firstInvalidFrom (p + 1) ks ws = some (q, x) → FaultsAt o q x s (k d)) :
    FaultsAt o q x s (withDest o p w s k) := by
  cases hw : OperandKind.wordValid .dest w with
  | false =>
    rw [firstInvalidFrom_invalid hw] at h
    cases h
    exact withDest_none ((destOf_eq_none_iff w).mpr hw)
  | true =>
    rw [firstInvalidFrom_valid hw] at h
    obtain ⟨d, hd⟩ := exists_destOf hw
    exact (withDest_some hd).trans (hk d h)

theorem faultsAt_withDestVal {k : Fin 8 → Word → Result}
    (h : firstInvalidFrom 1 [.dest, .value] [a, b] = some (q, x)) : FaultsAt o q x s (withDestVal o a b s k) :=
  faultsAt_withDest h fun _ h => faultsAt_withVal h nofun

theorem faultsAt_withDestValVal {k : Fin 8 → Word → Word → Result}
    (h : firstInvalidFrom 1 [.dest, .value, .value] [a, b, c] = some (q, x)) :
    FaultsAt o q x s (withDestValVal o a b c s k) :=
  faultsAt_withDest h fun _ h => faultsAt_withVal h fun _ h => faultsAt_withVal h nofun

theorem faultsAt_withValVal {k : Word → Word → Result}
    (h : firstInvalidFrom 1 [.value, .value] [a, b] = some (q, x)) : FaultsAt o q x s (withValVal o a b s k) :=
  faultsAt_withVal h fun _ h => faultsAt_withVal h nofun

end Resolving

/-- An instruction that is not well formed takes InvalidOperand at its lowest invalid operand, and does nothing else
(R66). -/
theorem exec_of_firstInvalid {i : Instr} {q : Nat} {x : Word} (s : State) (h : i.firstInvalid = some (q, x)) :
    exec i s = .next (s.raiseOperand i.opcode q x) := by
  cases i with
  | halt | ret | nop => cases h
  | push | jmp | call | out => exact faultsAt_withVal h nofun
  | pop | inp => exact faultsAt_withDest h nofun
  | set | not | rmem => exact faultsAt_withDestVal h
  | jt | jf | wmem => exact faultsAt_withValVal h
  | eq | gt | add | mult | mod | and | or => exact faultsAt_withDestValVal h

/-- Settles O33: the operand named is the one that `firstInvalid` reports. -/
theorem lowestInvalidOperandFaults : Obligations.LowestInvalidOperandFaults := by
  intro i s n w k hw hk hinvalid hvalid
  rw [Nat.add_comm n 1]
  exact exec_of_firstInvalid s (firstInvalidFrom_eq_some hw hk hinvalid hvalid)

/-- The template's faults, for every instruction: resolving gives the first, the fetch the other three. -/
theorem commonFaults (i : Instr) : CommonFaults i where
  operand s _ _ h := exec_of_firstInvalid s h
  operandFetch s n hinj hlow hs hpc hread _ hn hend := by
    have hfind := OpcodeMap.find_number hinj i.opcode hlow
    rw [← hread] at hfind
    rw [step_of_missing hs hpc hfind hn hend, hread]
    rfl
  unknownNumber s hs hpc hhigh hread := by
    rw [← hread] at hhigh
    rw [step_of_unknown hs hpc (OpcodeMap.find_high _ hhigh), hread]
    rfl
  opcodeFetch _ := step_of_pc_outside

end Sys2Proof.Machine

/-! SUPPORT. Frames: one lemma per named update, and how frames are put together. -/

namespace Sys2Proof.Machine

section Frames

variable {s t u : State} {l l' : List Component}

theorem Frame.refl (l : List Component) (s : State) : Frame l s s := by
  constructor <;> intros <;> rfl

theorem Frame.mono (h : Frame l s t) (hl : l ⊆ l') : Frame l' s t where
  regs r hr := h.regs r fun hm => hr (hl hm)
  pc hn := h.pc fun hm => hn (hl hm)
  stack hn := h.stack fun hm => hn (hl hm)
  bytes a hn := h.bytes a fun hm => hn (hl hm)
  status hn := h.status fun hm => hn (hl hm)
  skip hn := h.skip fun hm => hn (hl hm)
  inbuf hn := h.inbuf fun hm => hn (hl hm)
  out hn := h.out fun hm => hn (hl hm)
  params := h.params

theorem Frame.trans_same (h : Frame l s t) (h' : Frame l t u) : Frame l s u where
  regs r hr := (h'.regs r hr).trans (h.regs r hr)
  pc hn := (h'.pc hn).trans (h.pc hn)
  stack hn := (h'.stack hn).trans (h.stack hn)
  bytes a hn := (h'.bytes a hn).trans (h.bytes a hn)
  status hn := (h'.status hn).trans (h.status hn)
  skip hn := (h'.skip hn).trans (h.skip hn)
  inbuf hn := (h'.inbuf hn).trans (h.inbuf hn)
  out hn := (h'.out hn).trans (h.out hn)
  params := h'.params.trans h.params

/-- Two updates one after the other change what either changes. -/
theorem Frame.trans (h : Frame l s t) (h' : Frame l' t u) : Frame (l ++ l') s u :=
  (h.mono (List.subset_append_left l l')).trans_same (h'.mono (List.subset_append_right l l'))

variable (s)

theorem frame_writeReg (d : Fin 8) (v : Nat) : Frame [.reg d] s (s.writeReg d v) := by
  constructor <;> simp +contextual [State.readReg_writeReg]

theorem frame_pc (w : Word) : Frame [.pc] s { s with pc := w } := by
  constructor <;> simp [State.readReg]

theorem frame_stack (l : List Word) : Frame [.stack] s { s with stack := l } := by
  constructor <;> simp

theorem frame_status (x : Status) : Frame [.status] s { s with status := x } := by
  constructor <;> simp

theorem frame_skip (b : Bool) : Frame [.skip] s { s with skip := b } := by
  constructor <;> simp [State.readReg]

theorem frame_inbuf (l : List Word) : Frame [.inbuf] s { s with inbuf := l } := by
  constructor <;> simp

theorem frame_emit (c : Word) : Frame [.out] s (s.emit c) := by
  constructor <;> simp

theorem frame_advance (n : Nat) : Frame [.pc] s (s.advance n) := frame_pc s _

theorem frame_jump (target : Word) : Frame [.pc] s (s.jump target) := frame_pc s target

/-- A store changes no byte outside the word addressed. -/
theorem frame_store {addr : Nat} (v : Word) (hwf : Memory.wf s.mem = true) (ha : addr < 32768) :
    Frame [.memWord addr] s { s with mem := Memory.write s.mem addr v } := by
  constructor <;> simp +contextual [Memory.byteAt_write_other v hwf ha]

/-- The frame of the instructions that end in one register write. -/
theorem frame_writeReg_advance (d : Fin 8) (v n : Nat) : Frame [.reg d, .pc] s ((s.writeReg d v).advance n) :=
  (frame_writeReg s d v).trans (frame_advance _ n)

end Frames

/-! ### What the host can do -/

theorem hostStart_ready {s : State} (h : s.status = .ready) :
    hostAct .start s = ({ s with status := .running }, .runs) := by
  simp [hostAct, hostStart, h]

theorem hostResume_awaiting {s : State} (h : s.status = .awaitingInput) :
    hostAct .resume s = ({ s with status := .running }, .runs) := by
  simp [hostAct, hostResume, h]

theorem hostSignal_running {s : State} (h : s.status = .running) : hostAct .signal s = (s.setSkip, .nothing) := by
  simp [hostAct, hostSignal, h]

theorem hostStart_of_ne {s : State} (h : s.status ≠ .ready) : (hostAct .start s).1 = s := by
  cases hs : s.status with
  | ready => exact absurd hs h
  | running | awaitingInput | halted | faulted => simp [hostAct, hostStart, hs]

theorem hostResume_of_ne {s : State} (h : s.status ≠ .awaitingInput) : (hostAct .resume s).1 = s := by
  cases hs : s.status with
  | awaitingInput => exact absurd hs h
  | ready | running | halted | faulted => simp [hostAct, hostResume, hs]

theorem hostSignal_of_ne {s : State} (h : s.status ≠ .running) : hostAct .signal s = (s, .nothing) := by
  cases hs : s.status with
  | running => exact absurd hs h
  | ready | awaitingInput | halted | faulted => simp [hostAct, hostSignal, hs]

/-- What a host action can do to the state, said once (R110 to R114). -/
theorem hostAct_cases (a : HostAction) (s : State) :
    (hostAct a s).1 = s ∨
    (s.status = .ready ∧ (hostAct a s).1 = { s with status := .running }) ∨
    (s.status = .awaitingInput ∧ (hostAct a s).1 = { s with status := .running }) ∨
    (∃ codes, (hostAct a s).1 = { s with inbuf := s.inbuf ++ codes }) ∨
    (s.status = .running ∧ (hostAct a s).1 = s.setSkip) := by
  cases a with
  | start =>
    by_cases h : s.status = .ready
    · exact .inr (.inl ⟨h, by rw [hostStart_ready h]⟩)
    · exact .inl (hostStart_of_ne h)
  | resume =>
    by_cases h : s.status = .awaitingInput
    · exact .inr (.inr (.inl ⟨h, by rw [hostResume_awaiting h]⟩))
    · exact .inl (hostResume_of_ne h)
  | append codes => exact .inr (.inr (.inr (.inl ⟨codes, rfl⟩)))
  | signal =>
    by_cases h : s.status = .running
    · exact .inr (.inr (.inr (.inr ⟨h, by rw [hostSignal_running h]⟩)))
    · exact .inl (by rw [hostSignal_of_ne h])

/-- Settles O54, status by status. -/
theorem hostActionsActAsSaid : Obligations.HostActionsActAsSaid := by
  refine fun s => ⟨fun h => ⟨hostStart_ready h, ?_⟩, fun h => ?_, fun h => ⟨?_, hostResume_awaiting h⟩, fun h => ?_,
    fun _ => rfl, hostSignal_running, hostSignal_of_ne⟩
  · simp [hostAct, hostResume, h]
  · simp [hostAct, hostStart, hostResume, h]
  · simp [hostAct, hostStart, h]
  · obtain ⟨r, h⟩ | ⟨info, h⟩ := h <;> simp [hostAct, hostStart, hostResume, h]

/-- Settles O41: the step is idle, and of the host's actions only an append changes a state of these statuses. -/
theorem finalStatusesAreFinal : Obligations.FinalStatusesAreFinal := by
  intro s hfinal
  have hne : s.status ≠ .ready ∧ s.status ≠ .running ∧ s.status ≠ .awaitingInput := by
    obtain ⟨r, h⟩ | ⟨info, h⟩ := hfinal <;> simp [h]
  obtain ⟨hready, hrunning, hawaiting⟩ := hne
  refine ⟨step_of_not_running hrunning, fun a => ?_⟩
  obtain h | ⟨h, -⟩ | ⟨h, -⟩ | ⟨codes, h⟩ | ⟨h, -⟩ := hostAct_cases a s
  · rw [h]
    exact Frame.refl _ s
  · exact absurd h hready
  · exact absurd h hawaiting
  · rw [h]
    exact frame_inbuf s _
  · exact absurd h hrunning

end Sys2Proof.Machine

/-! SUPPORT. What each instruction answers, one equation per instruction and case, and from them R67 and R76 to R97. -/

namespace Sys2Proof.Machine

/-! ### One equation per instruction and case -/

section Equations

variable {s : State} {o : Opcode} {a b c : Word} {d : Fin 8} {u v t : Word} {rest : List Word}

theorem withPush_full {k : State → Result} (h : s.params.stackMax = .atMost s.stack.length) :
    withPush o v s k = .next (s.raiseIn o .stackOverflow) := by
  simp [withPush, (stackFull_eq_true_iff _ _).mpr h]

theorem withPush_room {k : State → Result} (h : s.params.stackMax ≠ .atMost s.stack.length) :
    withPush o v s k = k { s with stack := v :: s.stack } := by
  simp [withPush, mt (stackFull_eq_true_iff _ _).mp h]

theorem withPop_nil {e : Result} {k : Word → State → Result} (h : s.stack = []) : withPop s e k = e := by
  simp [withPop, h]

theorem withPop_cons {e : Result} {k : Word → State → Result} (h : s.stack = v :: rest) :
    withPop s e k = k v { s with stack := rest } := by
  simp [withPop, h]

theorem withInput_nil {e : Result} {k : Word → State → Result} (h : s.inbuf = []) : withInput s e k = e := by
  simp [withInput, h]

theorem withInput_cons {e : Result} {k : Word → State → Result} (h : s.inbuf = v :: rest) :
    withInput s e k = k v { s with inbuf := rest } := by
  simp [withInput, h]

theorem exec_jmp (ht : valOf s a = some t) : exec (.jmp a) s = .next (s.jump t) := withVal_some ht

theorem exec_jt (hv : valOf s a = some v) (ht : valOf s b = some t) :
    exec (.jt a b) s = .next (if v ≠ 0 then s.jump t else s.advance 3) := withValVal_some hv ht

theorem exec_jf (hv : valOf s a = some v) (ht : valOf s b = some t) :
    exec (.jf a b) s = .next (if v = 0 then s.jump t else s.advance 3) := withValVal_some hv ht

theorem exec_call_full (ht : valOf s a = some t) (h : s.params.stackMax = .atMost s.stack.length) :
    exec (.call a) s = .next (s.raiseIn .call .stackOverflow) := (withVal_some ht).trans (withPush_full h)

theorem exec_call_room (ht : valOf s a = some t) (h : s.params.stackMax ≠ .atMost s.stack.length) :
    exec (.call a) s = .next (State.jump t { s with stack := s.pcPlus 2 :: s.stack }) :=
  (withVal_some ht).trans (withPush_room h)

theorem exec_ret (s : State) :
    exec .ret s = withPop s (.next (s.halt .retEmpty)) fun v s' => .next (s'.jump v) := rfl

theorem exec_ret_nil (h : s.stack = []) : exec .ret s = .next (s.halt .retEmpty) := (exec_ret s).trans (withPop_nil h)

theorem exec_ret_cons (h : s.stack = t :: rest) : exec .ret s = .next (State.jump t { s with stack := rest }) :=
  (exec_ret s).trans (withPop_cons h)

theorem exec_set (hd : destOf a = some d) (hv : valOf s b = some v) :
    exec (.set a b) s = .next ((s.writeReg d v.toNat).advance 3) := withDestVal_some hd hv

theorem exec_push_full (hv : valOf s a = some v) (h : s.params.stackMax = .atMost s.stack.length) :
    exec (.push a) s = .next (s.raiseIn .push .stackOverflow) := (withVal_some hv).trans (withPush_full h)

theorem exec_push_room (hv : valOf s a = some v) (h : s.params.stackMax ≠ .atMost s.stack.length) :
    exec (.push a) s = .next (State.advance 2 { s with stack := v :: s.stack }) :=
  (withVal_some hv).trans (withPush_room h)

theorem exec_pop_nil (hd : destOf a = some d) (h : s.stack = []) :
    exec (.pop a) s = .next (s.raiseIn .pop .emptyStackPop) := (withDest_some hd).trans (withPop_nil h)

theorem exec_pop_cons (hd : destOf a = some d) (h : s.stack = v :: rest) :
    exec (.pop a) s = .next ((State.writeReg d v.toNat { s with stack := rest }).advance 2) :=
  (withDest_some hd).trans (withPop_cons h)

theorem exec_rmem (hd : destOf a = some d) (hv : valOf s b = some v) (h : v.toNat < 32768) :
    exec (.rmem a b) s = .next ((s.writeReg d (Memory.read s.mem v.toNat).toNat).advance 3) :=
  (withDestVal_some hd hv).trans (withLoad_inRange h)

theorem exec_rmem_outside (hd : destOf a = some d) (hv : valOf s b = some v) (h : 32768 ≤ v.toNat) :
    exec (.rmem a b) s = .fault (.addressOutsideMemory v.toNat) :=
  (withDestVal_some hd hv).trans (if_neg (Nat.not_lt.mpr h))

theorem exec_wmem (hu : valOf s a = some u) (hv : valOf s b = some v) (h : u.toNat < 32768) :
    exec (.wmem a b) s = .next (State.advance 3 { s with mem := Memory.write s.mem u.toNat v }) :=
  (withValVal_some hu hv).trans (withStore_inRange h)

theorem exec_wmem_outside (hu : valOf s a = some u) (hv : valOf s b = some v) (h : 32768 ≤ u.toNat) :
    exec (.wmem a b) s = .fault (.addressOutsideMemory u.toNat) :=
  (withValVal_some hu hv).trans (if_neg (Nat.not_lt.mpr h))

theorem exec_eq (hd : destOf a = some d) (hu : valOf s b = some u) (hv : valOf s c = some v) :
    exec (.eq a b c) s = .next ((s.writeReg d (truthValue (u.toNat == v.toNat))).advance 4) :=
  withDestValVal_some hd hu hv

theorem exec_gt (hd : destOf a = some d) (hu : valOf s b = some u) (hv : valOf s c = some v) :
    exec (.gt a b c) s = .next ((s.writeReg d (truthValue (decide (u.toNat > v.toNat)))).advance 4) :=
  withDestValVal_some hd hu hv

theorem exec_add (hd : destOf a = some d) (hu : valOf s b = some u) (hv : valOf s c = some v) :
    exec (.add a b c) s = .next ((s.writeReg d (u.toNat + v.toNat)).advance 4) := withDestValVal_some hd hu hv

theorem exec_mult (hd : destOf a = some d) (hu : valOf s b = some u) (hv : valOf s c = some v) :
    exec (.mult a b c) s = .next ((s.writeReg d (u.toNat * v.toNat)).advance 4) := withDestValVal_some hd hu hv

theorem exec_mod_zero (hd : destOf a = some d) (hu : valOf s b = some u) (hv : valOf s c = some v)
    (h : v.toNat = 0) : exec (.mod a b c) s = .next (s.raiseIn .mod .divisionByZero) :=
  (withDestValVal_some hd hu hv).trans (if_pos h)

theorem exec_mod (hd : destOf a = some d) (hu : valOf s b = some u) (hv : valOf s c = some v) (h : v.toNat ≠ 0) :
    exec (.mod a b c) s = .next ((s.writeReg d (u.toNat % v.toNat)).advance 4) :=
  (withDestValVal_some hd hu hv).trans (if_neg h)

theorem exec_and (hd : destOf a = some d) (hu : valOf s b = some u) (hv : valOf s c = some v) :
    exec (.and a b c) s = .next ((s.writeReg d (u.toNat &&& v.toNat)).advance 4) := withDestValVal_some hd hu hv

theorem exec_or (hd : destOf a = some d) (hu : valOf s b = some u) (hv : valOf s c = some v) :
    exec (.or a b c) s = .next ((s.writeReg d (u.toNat ||| v.toNat)).advance 4) := withDestValVal_some hd hu hv

theorem exec_not (hd : destOf a = some d) (hv : valOf s b = some v) :
    exec (.not a b) s = .next ((s.writeReg d (complement15 v)).advance 3) := withDestVal_some hd hv

theorem exec_out (hv : valOf s a = some v) : exec (.out a) s = .next ((s.emit v).advance 2) := withVal_some hv

theorem exec_inp_nil (hd : destOf a = some d) (h : s.inbuf = []) : exec (.inp a) s = .next s.suspend :=
  (withDest_some hd).trans (withInput_nil h)

theorem exec_inp_cons (hd : destOf a = some d) (h : s.inbuf = v :: rest) :
    exec (.inp a) s = .next ((State.writeReg d v.toNat { s with inbuf := rest }).advance 2) :=
  (withDest_some hd).trans (withInput_cons h)

end Equations

/-! ### The numbers they leave -/

section Numbers

variable (s : State) (d : Fin 8) (v n : Nat)

theorem toNat_readReg_write : (((s.writeReg d v).advance n).readReg d).toNat = v % 32768 := by
  rw [State.advance_readReg, State.toNat_readReg_writeReg_same]

/-- The register's bits (R93 to R95): 15 of the number written, and bit 15 clear. -/
theorem getLsbD_readReg_write (k : Nat) :
    (((s.writeReg d v).advance n).readReg d).getLsbD k = (decide (k < 15) && v.testBit k) := by
  rw [BitVec.getLsbD, toNat_readReg_write]
  exact Nat.testBit_mod_two_pow v 15 k

/-- `pc` moves on without a wrap from an address in memory, for no instruction is longer than four words. -/
theorem toNat_pc_advance (h : s.pc.toNat < 32768) (hn : n ≤ 4) : (s.advance n).pc.toNat = s.pc.toNat + n :=
  State.pcPlus_toNat s n (by omega)

end Numbers

theorem truthValue_eq_one {b : Bool} (h : b = true) : truthValue b % 32768 = 1 := by
  rw [h]; rfl

theorem truthValue_eq_zero {b : Bool} (h : b = false) : truthValue b % 32768 = 0 := by
  rw [h]; rfl

/-- The two forms of R95 agree below 32768. -/
theorem complement15_eq {v : Word} (h : v.toNat < 32768) : complement15 v = 32767 - v.toNat := by
  rw [complement15, BitVec.toNat_not]
  omega

theorem testBit_complement15 (v : Word) (k : Nat) : (complement15 v).testBit k = (decide (k < 15) && !v.getLsbD k) := by
  have hmod : (complement15 v).testBit k = (decide (k < 15) && (~~~v).getLsbD k) := Nat.testBit_mod_two_pow _ 15 k
  rw [hmod, BitVec.getLsbD_not]
  by_cases hk : k < 15
  · simp [hk, show k < 16 by omega]
  · simp [hk]

/-- A register's operand word resolves to its contents (R57, R64). -/
theorem valOf_registerWord (s : State) (d : Fin 8) : valOf s (registerWord d) = some (s.readReg d) := by
  obtain ⟨-, hregister, -, -⟩ := valResolvesOperands s (registerWord d)
  refine hregister d ?_
  rw [registerWord, BitVec.toNat_ofNat]
  omega

/-! ### Control -/

/-- Settles O1. -/
theorem haltStopsCleanly : Obligations.HaltStopsCleanly := by
  refine ⟨rfl, commonFaults _, fun s => ⟨_, rfl, rfl, frame_status s _, rfl, rfl⟩, fun s hmap hs hpc hzero => ?_⟩
  have hfind : s.params.opcodes.find 0 = some .halt := by rw [hmap]; exact find_defaultOpcodes_iff.mpr rfl
  refine step_of_decode_ok (rest := s.window.drop 1) hs ?_
  rw [State.window_cons s hpc, hzero, decode_of_find_some hfind (Nat.zero_le _)]
  rfl

/-- Settles O2. -/
theorem jmpGoesToItsTarget : Obligations.JmpGoesToItsTarget := by
  refine fun a => ⟨rfl, commonFaults _, fun s target ht => ⟨⟨_, exec_jmp ht, rfl, frame_jump s _⟩, ?_⟩⟩
  rintro rfl
  exact exec_jmp ht

/-- Settles O3. -/
theorem jtJumpsIfNonzero : Obligations.JtJumpsIfNonzero := by
  refine fun a b => ⟨rfl, commonFaults _, fun s v target hv ht hpc => ⟨_, exec_jt hv ht, ?_⟩⟩
  by_cases hzero : v = 0
  · rw [if_neg (not_not.mpr hzero)]
    exact ⟨frame_advance s 3, fun h => absurd (congrArg BitVec.toNat hzero) h,
      fun _ => toNat_pc_advance s 3 hpc (by omega)⟩
  · rw [if_pos hzero]
    exact ⟨frame_jump s _, fun _ => rfl, fun h => absurd (BitVec.eq_of_toNat_eq h) hzero⟩

/-- Settles O4. -/
theorem jfJumpsIfZero : Obligations.JfJumpsIfZero := by
  refine fun a b => ⟨rfl, commonFaults _, fun s v target hv ht hpc => ⟨_, exec_jf hv ht, ?_⟩⟩
  by_cases hzero : v = 0
  · rw [if_pos hzero]
    exact ⟨frame_jump s _, fun _ => rfl, fun h => absurd (congrArg BitVec.toNat hzero) h⟩
  · rw [if_neg hzero]
    exact ⟨frame_advance s 3, fun h => absurd (BitVec.eq_of_toNat_eq h) hzero,
      fun _ => toNat_pc_advance s 3 hpc (by omega)⟩

/-- Settles O5: the entry pushed is what the RET pops. -/
theorem callPushesReturnAddress : Obligations.CallPushesReturnAddress := by
  refine fun a => ⟨rfl, commonFaults _, fun s target ht => ⟨exec_call_full ht, fun hroom hpc => ?_⟩⟩
  have hret : (s.pcPlus 2).toNat = s.pc.toNat + 2 := State.pcPlus_toNat s 2 (by omega)
  refine ⟨_, _, exec_call_room ht hroom, rfl, rfl, hret, ?_, fun u hu => ⟨_, exec_ret_cons hu, hret, rfl⟩⟩
  exact ((frame_stack s _).trans (frame_jump _ target)).mono (by simp)

/-- Settles O6. -/
theorem retReturnsOrHalts : Obligations.RetReturnsOrHalts := by
  refine ⟨rfl, commonFaults _, fun s => ⟨fun h => ⟨_, exec_ret_nil h, rfl, frame_status s _⟩, fun v rest h => ?_⟩⟩
  exact ⟨_, exec_ret_cons h, rfl, rfl, ((frame_stack s rest).trans (frame_jump _ v)).mono (by simp)⟩

/-- Settles O7. -/
theorem nopOnlyAdvances : Obligations.NopOnlyAdvances :=
  ⟨rfl, commonFaults _, fun s hpc => ⟨_, rfl, toNat_pc_advance s 1 hpc (by omega), frame_advance s 1⟩⟩

/-! ### Data movement -/

/-- Settles O8. -/
theorem setCopiesValue : Obligations.SetCopiesValue :=
  fun _ _ => ⟨rfl, commonFaults _, fun s d _ hd hv hpc => ⟨_, exec_set hd hv, toNat_readReg_write s d _ 3,
    toNat_pc_advance _ 3 hpc (by omega), frame_writeReg_advance s d _ 3⟩⟩

/-- Settles O9. -/
theorem pushPutsValueOnTop : Obligations.PushPutsValueOnTop :=
  fun _ => ⟨rfl, commonFaults _, fun s _ hv => ⟨exec_push_full hv, fun hroom hpc =>
    ⟨_, exec_push_room hv hroom, rfl, toNat_pc_advance _ 2 hpc (by omega),
      (frame_stack s _).trans (frame_advance _ 2)⟩⟩⟩

/-- Settles O10. -/
theorem popTakesTop : Obligations.PopTakesTop := by
  refine fun a => ⟨rfl, commonFaults _, fun s d hd => ⟨exec_pop_nil hd, fun v rest h hpc => ?_⟩⟩
  exact ⟨_, exec_pop_cons hd h, toNat_readReg_write _ d _ 2, rfl, toNat_pc_advance _ 2 hpc (by omega),
    ((frame_stack s rest).trans (frame_writeReg_advance _ d _ 2)).mono (by simp)⟩

/-- Settles O11. -/
theorem rmemReadsMemory : Obligations.RmemReadsMemory :=
  fun _ _ => ⟨rfl, commonFaults _, fun s d _ hd hv => ⟨fun haddr hpc => ⟨_, exec_rmem hd hv haddr,
    toNat_readReg_write s d _ 3, toNat_pc_advance _ 3 hpc (by omega), frame_writeReg_advance s d _ 3⟩,
    fun hinv => valOf_lt hinv.regs hv⟩⟩

/-- Settles O12: the frame is that of the store, byte by byte. -/
theorem wmemWritesMemory : Obligations.WmemWritesMemory := by
  refine fun a b => ⟨rfl, commonFaults _, fun s addr v ha hv => ⟨fun hwf haddr hpc => ?_, fun hinv => ?_⟩⟩
  · exact ⟨_, exec_wmem ha hv haddr, Memory.read_write_same v hwf haddr, toNat_pc_advance _ 3 hpc (by omega),
      (frame_store s v hwf haddr).trans (frame_advance _ 3)⟩
  · exact ⟨hinv.mem, valOf_lt hinv.regs ha, valOf_lt hinv.regs hv⟩

/-! ### Comparison -/

/-- Settles O13. -/
theorem eqComparesValues : Obligations.EqComparesValues := by
  refine fun a b c => ⟨rfl, commonFaults _, fun s d u v hd hu hv hpc => ⟨_, exec_eq hd hu hv, fun h => ?_, fun h => ?_,
    toNat_pc_advance _ 4 hpc (by omega), frame_writeReg_advance s d _ 4⟩⟩ <;> rw [toNat_readReg_write]
  · exact truthValue_eq_one (by simp [h])
  · exact truthValue_eq_zero (by simpa [BitVec.toNat_inj] using h)

/-- Settles O14. -/
theorem gtComparesUnsigned : Obligations.GtComparesUnsigned := by
  refine fun a b c => ⟨rfl, commonFaults _, fun s d u v hd hu hv hpc => ⟨_, exec_gt hd hu hv, fun h => ?_, fun h => ?_,
    toNat_pc_advance _ 4 hpc (by omega), frame_writeReg_advance s d _ 4⟩⟩ <;> rw [toNat_readReg_write]
  · exact truthValue_eq_one (decide_eq_true h)
  · exact truthValue_eq_zero (decide_eq_false (Nat.not_lt.mpr h))

/-! ### Arithmetic and logic -/

/-- Settles O15. -/
theorem addWrapsAt32768 : Obligations.AddWrapsAt32768 :=
  fun _ _ _ => ⟨rfl, commonFaults _, fun s d _ _ hd hu hv hpc => ⟨_, exec_add hd hu hv, toNat_readReg_write s d _ 4,
    toNat_pc_advance _ 4 hpc (by omega), frame_writeReg_advance s d _ 4⟩⟩

/-- Settles O16. -/
theorem multWrapsAt32768 : Obligations.MultWrapsAt32768 :=
  fun _ _ _ => ⟨rfl, commonFaults _, fun s d _ _ hd hu hv hpc => ⟨_, exec_mult hd hu hv, toNat_readReg_write s d _ 4,
    toNat_pc_advance _ 4 hpc (by omega), frame_writeReg_advance s d _ 4⟩⟩

/-- Settles O17: under the data invariant the divisor, and so the remainder, is below 32768. -/
theorem modTakesRemainder : Obligations.ModTakesRemainder := by
  refine fun a b c => ⟨rfl, commonFaults _, fun s d u v hd hu hv => ⟨exec_mod_zero hd hu hv, fun hne hpc =>
    ⟨_, exec_mod hd hu hv hne, toNat_readReg_write s d _ 4, fun hinv => ?_, toNat_pc_advance _ 4 hpc (by omega),
      frame_writeReg_advance s d _ 4⟩⟩⟩
  have hrem : u.toNat % v.toNat < v.toNat := Nat.mod_lt _ (Nat.pos_of_ne_zero hne)
  have hdiv : v.toNat < 32768 := valOf_lt hinv.regs hv
  rw [toNat_readReg_write, Nat.mod_eq_of_lt (hrem.trans hdiv)]
  exact ⟨rfl, hrem⟩

/-- Settles O18. -/
theorem andIsBitwise : Obligations.AndIsBitwise := by
  refine fun a b c => ⟨rfl, commonFaults _, fun s d u v hd hu hv hpc => ⟨_, exec_and hd hu hv, fun n => ?_,
    toNat_pc_advance _ 4 hpc (by omega), frame_writeReg_advance s d _ 4⟩⟩
  rw [getLsbD_readReg_write, Nat.testBit_and]
  rfl

/-- Settles O19. -/
theorem orIsBitwise : Obligations.OrIsBitwise := by
  refine fun a b c => ⟨rfl, commonFaults _, fun s d u v hd hu hv hpc => ⟨_, exec_or hd hu hv, fun n => ?_,
    toNat_pc_advance _ 4 hpc (by omega), frame_writeReg_advance s d _ 4⟩⟩
  rw [getLsbD_readReg_write, Nat.testBit_or]
  rfl

/-- Settles O20: the bits are the complement's, and below 32768 the complement of the complement is the value. -/
theorem notComplementsFifteenBits : Obligations.NotComplementsFifteenBits := by
  refine fun a b => ⟨rfl, commonFaults _, fun s d v hd hv hpc => ⟨_, exec_not hd hv, fun n => ?_, fun hlow => ?_,
    toNat_pc_advance _ 3 hpc (by omega), frame_writeReg_advance s d _ 3⟩⟩
  · rw [getLsbD_readReg_write, testBit_complement15, ← Bool.and_assoc, Bool.and_self]
  · have hval : (((s.writeReg d (complement15 v)).advance 3).readReg d).toNat = 32767 - v.toNat := by
      rw [toNat_readReg_write, complement15_eq hlow]
      omega
    refine ⟨hval, _, exec_not hd (valOf_registerWord _ d), BitVec.eq_of_toNat_eq ?_⟩
    rw [toNat_readReg_write, complement15_eq (by omega), hval]
    omega

/-! ### Input and output -/

/-- Settles O21. -/
theorem outEmitsValueAndSkip : Obligations.OutEmitsValueAndSkip :=
  fun _ => ⟨rfl, commonFaults _, fun s c hc hpc => ⟨_, exec_out hc, rfl, fun hinv => valOf_lt hinv.regs hc,
    toNat_pc_advance _ 2 hpc (by omega), (frame_emit s c).trans (frame_advance _ 2)⟩⟩

/-- Settles O22. -/
theorem inTakesCodeOrSuspends : Obligations.InTakesCodeOrSuspends := by
  refine fun a => ⟨rfl, commonFaults _, fun s d hd => ⟨fun h => ?_, fun k rest h hpc => ?_⟩⟩
  · exact ⟨_, exec_inp_nil hd h, rfl, rfl,
      (frame_status s _).trans (frame_skip { s with status := .awaitingInput } false)⟩
  · exact ⟨_, exec_inp_cons hd h, toNat_readReg_write _ d _ 2, rfl, toNat_pc_advance _ 2 hpc (by omega),
      ((frame_inbuf s rest).trans (frame_writeReg_advance _ d _ 2)).mono (by simp)⟩

/-! ### Register writes, and the model's stop -/

/-- A register that some instruction has changed holds less than 32768 (R67). -/
theorem toNat_readReg_lt_of_changed {i : Instr} {s t : State} {r : Fin 8} (ht : exec i s = .next t)
    (hr : t.readReg r ≠ s.readReg r) : (t.readReg r).toNat < 32768 := by
  obtain hregs | ⟨d, v, -, hregs⟩ := exec_writesAtMost i s t ht
  · exact absurd (State.readReg_congr hregs r) hr
  · rw [State.readReg_congr hregs r] at hr ⊢
    obtain rfl : r = d := by
      by_contra hne
      exact hr (s.readReg_writeReg_other d v r hne)
    rw [State.toNat_readReg_writeReg_same]
    exact Nat.mod_lt _ (by omega)

theorem writes_of_exec {i : Instr} {s s' : State} {d : Fin 8} {v n len : Nat}
    (h : exec i s = .next ((s'.writeReg d v).advance len)) (hn : v % 32768 = n) : Writes i s d n :=
  ⟨_, h, (toNat_readReg_write s' d v len).trans hn⟩

/-- Settles O34: the write itself, then what can have changed, then the equation of each of the 12 instructions. -/
theorem registerWritesReduce : Obligations.RegisterWritesReduce := by
  refine ⟨fun s d v => ⟨s.toNat_readReg_writeReg_same d v, s.readReg_writeReg_other d v⟩,
    fun i s t r => toNat_readReg_lt_of_changed, fun s a b c d u v hregs hd hu hv => ?_⟩
  have hu' : u.toNat < 32768 := valOf_lt hregs hu
  have hv' : v.toNat < 32768 := valOf_lt hregs hv
  refine ⟨writes_of_exec (exec_rmem hd hu hu') rfl, fun k rest hin => writes_of_exec (exec_inp_cons hd hin) rfl,
    fun e rest hst => writes_of_exec (exec_pop_cons hd hst) rfl, writes_of_exec (exec_add hd hu hv) rfl,
    writes_of_exec (exec_mult hd hu hv) rfl, writes_of_exec (exec_set hd hu) (Nat.mod_eq_of_lt hu'),
    writes_of_exec (exec_eq hd hu hv) ?_, writes_of_exec (exec_gt hd hu hv) ?_,
    fun hne => writes_of_exec (exec_mod hd hu hv hne) (Nat.mod_eq_of_lt ((Nat.mod_le _ _).trans_lt hu')),
    writes_of_exec (exec_and hd hu hv) (Nat.mod_eq_of_lt (Nat.and_lt_two_pow _ (n := 15) hv')),
    writes_of_exec (exec_or hd hu hv) (Nat.mod_eq_of_lt (Nat.or_lt_two_pow (n := 15) hu' hv')),
    writes_of_exec (exec_not hd hu) (by rw [complement15_eq hu']; omega)⟩
  · split
    · exact truthValue_eq_one (by simp_all)
    · exact truthValue_eq_zero (by simpa [BitVec.toNat_inj])
  · split
    · exact truthValue_eq_one (decide_eq_true ‹_›)
    · exact truthValue_eq_zero (decide_eq_false ‹_›)

/-- Settles O60: the register bound of the data invariant excludes such an address. -/
theorem dataAddressOutsideMemoryStops : Obligations.DataAddressOutsideMemoryStops :=
  fun _ _ _ _ haddr hhigh => ⟨fun _ hd => exec_rmem_outside hd haddr hhigh,
    fun _ hv => exec_wmem_outside haddr hv hhigh, fun hinv => absurd (valOf_lt hinv.regs haddr) (Nat.not_lt.mpr hhigh)⟩

end Sys2Proof.Machine

/-! SUPPORT. What running an instruction can do, said once (`exec_effect`), what each part of the state can become, and
from them R36, R68 to R70, R75, R99 and R106. -/

namespace Sys2Proof.Machine

/-! ### The effects of an instruction -/

/-- The instruction takes a fault of the CORE with this cause, and why (R105, R106). -/
inductive Raises (s : State) : Instr → FaultCause → Prop where
  | invalidOperand {i : Instr} {p : Nat} {w : Word} (h : i.firstInvalid = some (p, w)) :
      Raises s i (.invalidOperand p (s.pc.toNat + p) w)
  | emptyStackPop {a : Word} (h : s.stack = []) : Raises s (.pop a) .emptyStackPop
  | divisionByZero {a b c : Word} (h : valOf s c = some 0) : Raises s (.mod a b c) .divisionByZero
  | pushOverflow {a : Word} (h : s.params.stackMax = .atMost s.stack.length) : Raises s (.push a) .stackOverflow
  | callOverflow {a : Word} (h : s.params.stackMax = .atMost s.stack.length) : Raises s (.call a) .stackOverflow

/-- The instruction ends the run cleanly (R101). -/
inductive Halts (s : State) : Instr → HaltReason → Prop where
  | halt : Halts s .halt .halt
  | ret (h : s.stack = []) : Halts s .ret .retEmpty

/-- The mnemonics that may set `pc` to something other than the next instruction's address (R69). -/
abbrev transfers : List Opcode := [.jmp, .jt, .jf, .call, .ret]

/-- The instruction goes on, to this state. The first case is that of the ten instructions of R15 whose one effect is
a register write. -/
inductive Continues (s : State) : Instr → State → Prop where
  | write {i : Instr} {d : Fin 8} {v : Nat} (hi : i.opcode ∉ transfers) :
      Continues s i ((s.writeReg d v).advance i.opcode.length)
  | pop {a v : Word} {d : Fin 8} {rest : List Word} (h : s.stack = v :: rest) :
      Continues s (.pop a) ((State.writeReg d v.toNat { s with stack := rest }).advance 2)
  | inp {a c : Word} {d : Fin 8} {rest : List Word} (h : s.inbuf = c :: rest) :
      Continues s (.inp a) ((State.writeReg d c.toNat { s with inbuf := rest }).advance 2)
  | nop : Continues s .nop (s.advance 1)
  | jtPast {a b : Word} : Continues s (.jt a b) (s.advance 3)
  | jfPast {a b : Word} : Continues s (.jf a b) (s.advance 3)
  | jt {a b t : Word} (h : valOf s b = some t) : Continues s (.jt a b) (s.jump t)
  | jf {a b t : Word} (h : valOf s b = some t) : Continues s (.jf a b) (s.jump t)
  | jmp {a t : Word} (h : valOf s a = some t) : Continues s (.jmp a) (s.jump t)
  | push {a v : Word} (h : valOf s a = some v) (hroom : s.params.stackMax ≠ .atMost s.stack.length) :
      Continues s (.push a) (State.advance 2 { s with stack := v :: s.stack })
  | call {a t : Word} (h : valOf s a = some t) (hroom : s.params.stackMax ≠ .atMost s.stack.length) :
      Continues s (.call a) (State.jump t { s with stack := s.pcPlus 2 :: s.stack })
  | ret {v : Word} {rest : List Word} (h : s.stack = v :: rest) :
      Continues s .ret (State.jump v { s with stack := rest })
  | out {a c : Word} (h : valOf s a = some c) : Continues s (.out a) ((s.emit c).advance 2)
  | wmem {a b addr v : Word} (ha : valOf s a = some addr) (hv : valOf s b = some v) (h : addr.toNat < 32768) :
      Continues s (.wmem a b) (State.advance 3 { s with mem := Memory.write s.mem addr.toNat v })

/-- What running instruction `i` in `s` answers: a fault of the CORE, a clean end, a suspension, a state to go on from,
or the model's own stop. -/
inductive Effect (s : State) (i : Instr) : Result → Prop where
  | raises {cause : FaultCause} (h : Raises s i cause) : Effect s i (.next (s.raiseIn i.opcode cause))
  | halts {r : HaltReason} (h : Halts s i r) : Effect s i (.next (s.halt r))
  | suspends {a : Word} (hi : i = .inp a) (hd : destOf a ≠ none) (h : s.inbuf = []) : Effect s i (.next s.suspend)
  | goesOn {t : State} (h : Continues s i t) : Effect s i (.next t)
  | outside {w addr : Word} (h : valOf s w = some addr) (hhigh : 32768 ≤ addr.toNat) :
      Effect s i (.fault (.addressOutsideMemory addr.toNat))

section Rules

variable {s : State} {i : Instr} {o : Opcode} {p : Nat} {w a b c : Word} {ks : List OperandKind} {ws : List Word}

theorem effect_withVal {k : Word → Result} (h : firstInvalidFrom p (.value :: ks) (w :: ws) = none)
    (hk : ∀ v, valOf s w = some v → firstInvalidFrom (p + 1) ks ws = none → Effect s i (k v)) :
    Effect s i (withVal o p w s k) := by
  cases hw : OperandKind.wordValid .value w with
  | false => cases h.symm.trans (firstInvalidFrom_invalid hw p ks ws)
  | true =>
    obtain ⟨v, hv⟩ := exists_valOf s hw
    rw [withVal_some hv]
    exact hk v hv ((firstInvalidFrom_valid hw p ks ws).symm.trans h)

theorem effect_withDest {k : Fin 8 → Result} (h : firstInvalidFrom p (.dest :: ks) (w :: ws) = none)
    (hk : ∀ d, destOf w = some d → firstInvalidFrom (p + 1) ks ws = none → Effect s i (k d)) :
    Effect s i (withDest o p w s k) := by
  cases hw : OperandKind.wordValid .dest w with
  | false => cases h.symm.trans (firstInvalidFrom_invalid hw p ks ws)
  | true =>
    obtain ⟨d, hd⟩ := exists_destOf hw
    rw [withDest_some hd]
    exact hk d hd ((firstInvalidFrom_valid hw p ks ws).symm.trans h)

theorem effect_withDestVal {k : Fin 8 → Word → Result} (h : firstInvalidFrom 1 [.dest, .value] [a, b] = none)
    (hk : ∀ d v, valOf s b = some v → Effect s i (k d v)) : Effect s i (withDestVal o a b s k) :=
  effect_withDest h fun d _ h => effect_withVal h fun v hv _ => hk d v hv

theorem effect_withDestValVal {k : Fin 8 → Word → Word → Result}
    (h : firstInvalidFrom 1 [.dest, .value, .value] [a, b, c] = none)
    (hk : ∀ d u v, valOf s c = some v → Effect s i (k d u v)) : Effect s i (withDestValVal o a b c s k) :=
  effect_withDest h fun d _ h => effect_withVal h fun u _ h => effect_withVal h fun v hv _ => hk d u v hv

theorem effect_withValVal {k : Word → Word → Result} (h : firstInvalidFrom 1 [.value, .value] [a, b] = none)
    (hk : ∀ u v, valOf s a = some u → valOf s b = some v → Effect s i (k u v)) :
    Effect s i (withValVal o a b s k) :=
  effect_withVal h fun u hu h => effect_withVal h fun v hv _ => hk u v hu hv

end Rules

/-- Everything an instruction can do, said once: not well formed, it takes InvalidOperand; well formed, its operands
resolve and it has its own effect. -/
theorem exec_effect (i : Instr) (s : State) : Effect s i (exec i s) := by
  cases hwf : i.firstInvalid with
  | some x =>
    rw [exec_of_firstInvalid s hwf]
    exact .raises (.invalidOperand hwf)
  | none =>
    cases i with
    | halt => exact .halts .halt
    | nop => exact .goesOn .nop
    | ret =>
      cases hst : s.stack with
      | nil => exact exec_ret_nil hst ▸ .halts (.ret hst)
      | cons v rest => exact exec_ret_cons hst ▸ .goesOn (.ret hst)
    | jmp => exact effect_withVal hwf fun _ ht _ => .goesOn (.jmp ht)
    | jt =>
      refine effect_withValVal hwf fun _ _ _ ht => ?_
      split
      · exact .goesOn (.jt ht)
      · exact .goesOn .jtPast
    | jf =>
      refine effect_withValVal hwf fun _ _ _ ht => ?_
      split
      · exact .goesOn (.jf ht)
      · exact .goesOn .jfPast
    | push =>
      refine effect_withVal hwf fun v hv _ => ?_
      by_cases hroom : s.params.stackMax = .atMost s.stack.length
      · exact withPush_full (v := v) hroom ▸ .raises (.pushOverflow hroom)
      · exact withPush_room (v := v) hroom ▸ .goesOn (.push hv hroom)
    | call =>
      refine effect_withVal hwf fun t ht _ => ?_
      by_cases hroom : s.params.stackMax = .atMost s.stack.length
      · exact withPush_full (v := s.pcPlus 2) hroom ▸ .raises (.callOverflow hroom)
      · exact withPush_room (v := s.pcPlus 2) hroom ▸ .goesOn (.call ht hroom)
    | out => exact effect_withVal hwf fun _ hc _ => .goesOn (.out hc)
    | wmem =>
      refine effect_withValVal hwf fun addr v ha hv => ?_
      obtain ⟨hlow, hk⟩ | ⟨hhigh, hk⟩ := withStore_cases addr.toNat v s fun s' => .next (s'.advance 3)
      · exact hk ▸ .goesOn (.wmem ha hv hlow)
      · exact hk ▸ .outside ha hhigh
    | set | not => exact effect_withDestVal hwf fun _ _ _ => .goesOn (.write (of_decide_eq_true rfl))
    | rmem =>
      refine effect_withDestVal hwf fun d addr haddr => ?_
      obtain ⟨-, hk⟩ | ⟨hhigh, hk⟩ := withLoad_cases addr.toNat s fun v => .next ((s.writeReg d v.toNat).advance 3)
      · exact hk ▸ .goesOn (.write (of_decide_eq_true rfl))
      · exact hk ▸ .outside haddr hhigh
    | eq | gt | add | mult | and | or =>
      exact effect_withDestValVal hwf fun _ _ _ _ => .goesOn (.write (of_decide_eq_true rfl))
    | mod =>
      refine effect_withDestValVal hwf fun _ _ v hv => ?_
      split
      next hzero =>
        obtain rfl : v = 0 := BitVec.eq_of_toNat_eq hzero
        exact .raises (.divisionByZero hv)
      next => exact .goesOn (.write (of_decide_eq_true rfl))
    | pop =>
      refine effect_withDest hwf fun d hd _ => ?_
      cases hst : s.stack with
      | nil => exact withPop_nil hst ▸ .raises (.emptyStackPop hst)
      | cons v rest => exact withPop_cons hst ▸ .goesOn (.pop hst)
    | inp =>
      refine effect_withDest hwf fun d hd _ => ?_
      cases hin : s.inbuf with
      | nil => exact withInput_nil hin ▸ .suspends rfl (by simp [hd]) hin
      | cons c rest => exact withInput_cons hin ▸ .goesOn (.inp hin)

end Sys2Proof.Machine

/-! SUPPORT. From the effects of an instruction: what a step can change, R36, R68 to R70, R75, R99 and R106. -/

namespace Sys2Proof.Machine

/-! ### What going on leaves in each part of the state -/

section Parts

variable {s t : State} {i : Instr}

theorem Continues.status_eq (h : Continues s i t) : t.status = s.status := by
  cases h <;> rfl

theorem Continues.params_eq (h : Continues s i t) : t.params = s.params := by
  cases h <;> rfl

/-- `pc` moves by the length, or to a resolved operand of a jump or call, or to the entry that RET pops (R69). -/
theorem Continues.pc_cases (h : Continues s i t) :
    (i.opcode ∉ [Opcode.jmp, .call, .ret] ∧ t.pc = s.pcPlus i.opcode.length) ∨
    (i.opcode ∈ [Opcode.jt, .jf] ∧ ∃ w, i.operands[1]? = some w ∧ valOf s w = some t.pc) ∨
    (i.opcode ∈ [Opcode.jmp, .call] ∧ ∃ w, i.operands[0]? = some w ∧ valOf s w = some t.pc) ∨
    (i.opcode = .ret ∧ s.stack.head? = some t.pc) := by
  cases h with
  | write hi => exact .inl ⟨by simp_all, rfl⟩
  | pop | inp | nop | jtPast | jfPast | push | out | wmem => exact .inl ⟨of_decide_eq_true rfl, rfl⟩
  | jt h | jf h => exact .inr (.inl ⟨of_decide_eq_true rfl, _, rfl, h⟩)
  | jmp h | call h => exact .inr (.inr (.inl ⟨of_decide_eq_true rfl, _, rfl, h⟩))
  | ret h => exact .inr (.inr (.inr ⟨rfl, by rw [h]; rfl⟩))

/-- At most one push, of a value or a return address and not beyond the capacity, or one pop (R75). -/
theorem Continues.stack_cases (h : Continues s i t) :
    t.stack = s.stack ∨
    (∃ v, t.stack = v :: s.stack ∧ s.params.stackMax ≠ .atMost s.stack.length ∧
      (v = s.pcPlus i.opcode.length ∨ ∃ w, valOf s w = some v)) ∨
    (∃ v, s.stack = v :: t.stack) := by
  cases h with
  | write | inp | nop | jtPast | jfPast | jt | jf | jmp | out | wmem => exact .inl rfl
  | push h hroom => exact .inr (.inl ⟨_, rfl, hroom, .inr ⟨_, h⟩⟩)
  | call h hroom => exact .inr (.inl ⟨_, rfl, hroom, .inl rfl⟩)
  | pop h | ret h => exact .inr (.inr ⟨_, h⟩)

/-- Only WMEM writes memory, the word at the value of its first operand (R25, R75). -/
theorem Continues.mem_cases (h : Continues s i t) :
    t.mem = s.mem ∨
    ∃ a b addr v, i = .wmem a b ∧ valOf s a = some addr ∧ valOf s b = some v ∧ addr.toNat < 32768 ∧
      t.mem = Memory.write s.mem addr.toNat v := by
  cases h with
  | write | pop | inp | nop | jtPast | jfPast | jt | jf | jmp | push | call | ret | out => exact .inl rfl
  | wmem ha hv hlow => exact .inr ⟨_, _, _, _, rfl, ha, hv, hlow, rfl⟩

/-- At most one event, whose code is a resolved value, or one input code taken (R75). -/
theorem Continues.io_cases (h : Continues s i t) :
    (t.out = s.out ∧ t.inbuf = s.inbuf) ∨
    (t.inbuf = s.inbuf ∧ ∃ w c, valOf s w = some c ∧ t.out = s.out ++ [⟨c, s.skip⟩]) ∨
    (t.out = s.out ∧ ∃ c, s.inbuf = c :: t.inbuf) := by
  cases h with
  | write | pop | nop | jtPast | jfPast | jt | jf | jmp | push | call | ret | wmem => exact .inl ⟨rfl, rfl⟩
  | out h => exact .inr (.inl ⟨rfl, _, _, h, rfl⟩)
  | inp h => exact .inr (.inr ⟨rfl, _, h⟩)

end Parts

/-! ### Instructions -/

/-- An instruction that answers a next state takes a fault, halts, suspends, or goes on. -/
theorem exec_next_cases {i : Instr} {s t : State} (ht : exec i s = .next t) :
    (∃ cause, Raises s i cause ∧ t = s.raiseIn i.opcode cause) ∨
    (∃ r, Halts s i r ∧ t = s.halt r) ∨
    (∃ a, i = .inp a ∧ destOf a ≠ none ∧ s.inbuf = [] ∧ t = s.suspend) ∨
    Continues s i t := by
  have heffect := exec_effect i s
  rw [ht] at heffect
  cases heffect with
  | raises h => exact .inl ⟨_, h, rfl⟩
  | halts h => exact .inr (.inl ⟨_, h, rfl⟩)
  | suspends hi hd h => exact .inr (.inr (.inl ⟨_, hi, hd, h, rfl⟩))
  | goesOn h => exact .inr (.inr (.inr h))

/-- An instruction leaves memory alone, or is the WMEM that wrote it. -/
theorem exec_mem_cases {i : Instr} {s t : State} (ht : exec i s = .next t) :
    t.mem = s.mem ∨
    ∃ a b addr v, i = .wmem a b ∧ valOf s a = some addr ∧ valOf s b = some v ∧ addr.toNat < 32768 ∧
      t.mem = Memory.write s.mem addr.toNat v := by
  obtain ⟨_, -, rfl⟩ | ⟨_, -, rfl⟩ | ⟨_, -, -, -, rfl⟩ | h := exec_next_cases ht
  · exact .inl rfl
  · exact .inl rfl
  · exact .inl rfl
  · exact h.mem_cases

theorem Opcode.length_le_four (o : Opcode) : o.length ≤ 4 := by
  have := o.arity_le_three
  rw [Opcode.length]
  omega

/-- A register that may be written is the one that the first operand names, so there is only one. -/
theorem MayWrite.unique {i : Instr} {r r' : Fin 8} (h : MayWrite i r) (h' : MayWrite i r') : r = r' := by
  obtain ⟨-, w, hw, hd⟩ := h
  obtain ⟨-, w', hw', hd'⟩ := h'
  cases hw.symm.trans hw'
  exact Option.some.inj (hd.symm.trans hd')

/-- Settles O36: part by part; the parts other than the registers change only where the instruction goes on. -/
theorem atMostOneEffectOfEachKind : Obligations.AtMostOneEffectOfEachKind := by
  intro i s t hinv ht
  refine ⟨fun r r' hr hr' => ((exec_writesAtMost i s).of_readReg_ne ht hr).unique
    ((exec_writesAtMost i s).of_readReg_ne ht hr'), ?_, fun x hx => ?_, ?_⟩
  · obtain ⟨_, -, rfl⟩ | ⟨_, -, rfl⟩ | ⟨_, -, -, -, rfl⟩ | h := exec_next_cases ht
    iterate 3 exact .inl rfl
    obtain h | ⟨v, h, -, -⟩ | h := h.stack_cases
    · exact .inl h
    · exact .inr (.inl ⟨v, h⟩)
    · exact .inr (.inr h)
  · obtain hmem | ⟨a, b, addr, v, hi, ha, -, hlow, hmem⟩ := exec_mem_cases ht
    · exact absurd (by rw [hmem]) hx
    · refine ⟨a, b, addr, hi, ha, ?_⟩
      by_contra hne
      exact hx (by rw [hmem, Memory.byteAt_write_other v hinv.mem hlow hne])
  · obtain ⟨_, -, rfl⟩ | ⟨_, -, rfl⟩ | ⟨_, -, -, -, rfl⟩ | h := exec_next_cases ht
    iterate 3 exact .inl ⟨rfl, rfl⟩
    obtain h | ⟨hin, w, c, -, hout⟩ | h := h.io_cases
    · exact .inl h
    · exact .inr (.inl ⟨hin, _, hout⟩)
    · exact .inr (.inr h)

/-- Settles O37: an instruction that ends the run leaves `pc`; one that goes on has one of the four ends of
`Continues.pc_cases`. -/
theorem pcMovesByLengthOrJump : Obligations.PcMovesByLengthOrJump := by
  intro i s t hs hpc ht
  have hlen : (s.pcPlus i.opcode.length).toNat = s.pc.toNat + i.opcode.length :=
    toNat_pc_advance s _ hpc (Opcode.length_le_four _)
  obtain ⟨_, -, rfl⟩ | ⟨_, -, rfl⟩ | ⟨_, -, -, -, rfl⟩ | h := exec_next_cases ht
  iterate 3 exact ⟨fun _ => rfl, nofun, nofun, nofun, nofun⟩
  refine ⟨fun hne => absurd (h.status_eq.trans hs) hne, ?_⟩
  obtain ⟨hi, hp⟩ | ⟨hi, hp⟩ | ⟨hi, hp⟩ | ⟨hi, hp⟩ := h.pc_cases
  · rw [← hp] at hlen
    exact ⟨fun _ _ => hlen, fun _ _ => .inl hlen, by simp_all, by simp_all⟩
  · obtain hi | hi : i.opcode = .jt ∨ i.opcode = .jf := by simpa using hi
    all_goals
      rw [hi]
      exact ⟨by simp, fun _ _ => .inr hp, by simp, by simp⟩
  · obtain hi | hi : i.opcode = .jmp ∨ i.opcode = .call := by simpa using hi
    all_goals
      rw [hi]
      exact ⟨by simp, by simp, fun _ _ => hp, by simp⟩
  · rw [hi]
    exact ⟨by simp, by simp, by simp, fun _ _ => hp⟩

/-- Of an instruction's faults, InvalidOperand is one of an instruction that is not well formed, each other kind has its
own instructions and reason, and none is a fault of the fetch (R105, R106). -/
theorem Raises.kind_cause {s : State} {i : Instr} {cause : FaultCause} (h : Raises s i cause) :
    (cause.kind = .invalidOperand → ¬ i.WellFormed) ∧
    (cause.kind = .emptyStackPop → (∃ a, i = .pop a) ∧ s.stack = []) ∧
    (cause.kind = .divisionByZero → ∃ a b c, i = .mod a b c ∧ valOf s c = some 0) ∧
    (cause.kind = .stackOverflow →
      ((∃ a, i = .push a) ∨ ∃ a, i = .call a) ∧ s.params.stackMax = .atMost s.stack.length) ∧
    cause.kind ≠ .unknownOpcode ∧ cause.kind ≠ .fetchOutOfRange := by
  cases h with
  | invalidOperand h => exact ⟨fun _ => by simp [h], nofun, nofun, nofun, nofun, nofun⟩
  | emptyStackPop h => exact ⟨nofun, fun _ => ⟨⟨_, rfl⟩, h⟩, nofun, nofun, nofun, nofun⟩
  | divisionByZero h => exact ⟨nofun, nofun, fun _ => ⟨_, _, _, rfl, h⟩, nofun, nofun, nofun⟩
  | pushOverflow h => exact ⟨nofun, nofun, nofun, fun _ => ⟨.inl ⟨_, rfl⟩, h⟩, nofun, nofun⟩
  | callOverflow h => exact ⟨nofun, nofun, nofun, fun _ => ⟨.inr ⟨_, rfl⟩, h⟩, nofun, nofun⟩

/-- An instruction that is not well formed takes no other fault than InvalidOperand. -/
theorem kind_of_not_wellFormed {i : Instr} {s : State} {cause : FaultCause}
    (ht : exec i s = .next (s.raiseIn i.opcode cause)) (h : ¬ i.WellFormed) : cause.kind = .invalidOperand := by
  obtain ⟨⟨p, w⟩, hp⟩ := Option.ne_none_iff_exists'.mp h
  have hnext := (exec_of_firstInvalid s hp).symm.trans ht
  simp only [Host.Outcome.next.injEq] at hnext
  have hrecord := congrArg State.status hnext
  rw [State.raiseOperand_status, State.raiseIn_status] at hrecord
  cases hrecord
  rfl

/-- Settles O40: of the effects only a fault ends in `faulted`, and its cause says the rest. -/
theorem faultKindsAndTheirCauses : Obligations.FaultKindsAndTheirCauses := by
  refine ⟨rfl, fun i s t info hs ht hinfo => ?_⟩
  obtain ⟨cause, h, rfl⟩ | ⟨_, -, rfl⟩ | ⟨_, -, -, -, rfl⟩ | h := exec_next_cases ht
  · cases hinfo
    obtain ⟨hinvalid, hrest⟩ := h.kind_cause
    exact ⟨rfl, rfl, ⟨hinvalid, kind_of_not_wellFormed ht⟩, hrest⟩
  · cases hinfo
  · cases hinfo
  · cases hinfo.symm.trans (h.status_eq.trans hs)

/-! ### Steps -/

/-- What a step of a running engine can do: take a fault, of the fetch or of its instruction; halt; suspend; or go on,
still running. -/
theorem step_next_cases {s t : State} (hs : s.status = .running) (ht : step s = .next t) :
    (∃ cause op, t = s.raise cause op) ∨
    (∃ i rest r, decode s.params.opcodes s.window = .ok (i, rest) ∧ Halts s i r ∧ t = s.halt r) ∨
    (∃ a rest, decode s.params.opcodes s.window = .ok (.inp a, rest) ∧ destOf a ≠ none ∧ s.inbuf = [] ∧
      t = s.suspend) ∨
    (t.status = .running ∧ ∃ i rest, decode s.params.opcodes s.window = .ok (i, rest) ∧ Continues s i t) := by
  obtain ⟨hne, -⟩ | ⟨-, e, -, hstep⟩ | ⟨-, i, rest, hdecode, hstep⟩ := step_cases s
  · exact absurd hs hne
  · cases hstep.symm.trans ht
    exact .inl (raiseDecode_eq s e)
  · obtain ⟨cause, -, rfl⟩ | ⟨r, h, rfl⟩ | ⟨a, rfl, hd, hin, rfl⟩ | h := exec_next_cases (hstep.symm.trans ht)
    · exact .inl ⟨cause, _, rfl⟩
    · exact .inr (.inl ⟨i, rest, r, hdecode, h, rfl⟩)
    · exact .inr (.inr (.inl ⟨a, rest, hdecode, hd, hin, rfl⟩))
    · exact .inr (.inr (.inr ⟨h.status_eq.trans hs, i, rest, hdecode, h⟩))

/-- Settles O38. -/
theorem stepsAreAtomic : Obligations.StepsAreAtomic := by
  intro s t hs ht
  obtain ⟨cause, op, rfl⟩ | ⟨_, _, r, -, -, rfl⟩ | ⟨_, _, -, -, -, rfl⟩ | ⟨hrunning, -⟩ := step_next_cases hs ht
  · exact ⟨fun info h => by cases h; rfl, nofun, nofun⟩
  · exact ⟨nofun, fun r h => by cases h; rfl, nofun⟩
  · exact ⟨nofun, nofun, fun _ => rfl⟩
  · rw [hrunning]
    exact ⟨nofun, nofun, nofun⟩

/-- Settles O39. -/
theorem fourOutcomesOfAStep : Obligations.FourOutcomesOfAStep := by
  intro s t hs ht
  obtain ⟨_, _, rfl⟩ | ⟨i, rest, r, hdecode, h, rfl⟩ | ⟨a, rest, hdecode, -, hin, rfl⟩ | ⟨hrunning, -⟩ :=
    step_next_cases hs ht
  · exact .inr (.inr (.inr (.inl ⟨_, rfl⟩)))
  · cases h with
    | halt => exact .inr (.inl ⟨rfl, rest, hdecode⟩)
    | ret hst => exact .inr (.inr (.inl ⟨rfl, hst, rest, hdecode⟩))
  · exact .inr (.inr (.inr (.inr ⟨rfl, hin, a, rest, hdecode⟩)))
  · exact .inl hrunning

/-- Settles O46: only an address that no register can give would stop an instruction. -/
theorem stepAlwaysAnswersNext : Obligations.StepAlwaysAnswersNext := by
  intro s hinv
  obtain ⟨-, h⟩ | ⟨-, e, -, h⟩ | ⟨-, i, rest, -, h⟩ := step_cases s
  · exact ⟨_, h⟩
  · exact ⟨_, h⟩
  · have heffect := exec_effect i s
    rw [← h] at heffect
    generalize step s = res at heffect
    cases heffect with
    | raises | halts | suspends | goesOn => exact ⟨_, rfl⟩
    | outside haddr hhigh => exact absurd (valOf_lt hinv.regs haddr) (Nat.not_lt.mpr hhigh)

end Sys2Proof.Machine

/-! SUPPORT. The two invariants: reset meets them, every step and every host action keeps them, so every reachable state
has them (R14, R17, R19, R23, R26, R28, R36, R110, R122). -/

namespace Sys2Proof.Machine

/-! ### The data invariant -/

/-- A decoded instruction lies in memory whole, so the address after it is at most 32768. -/
theorem pc_add_length_le {s : State} {i : Instr} {rest : List Word}
    (h : decode s.params.opcodes s.window = .ok (i, rest)) : s.pc.toNat + i.opcode.length ≤ 32768 := by
  obtain ⟨-, -, hmemory⟩ := encodeInvertsDecode
  obtain ⟨hpc, -, -⟩ := hmemory s i rest h
  have hlen := congrArg List.length (encode_append_of_decode h)
  rw [State.window_length s hpc] at hlen
  simp only [encode, List.length_append, List.length_cons, i.length_operands] at hlen
  rw [Opcode.length]
  omega

theorem StackMax.admits_succ {m : StackMax} {n : Nat} (h : m.admits n = true) (hroom : m ≠ .atMost n) :
    m.admits (n + 1) = true := by
  cases m with
  | infinity => rfl
  | atMost k =>
    simp only [StackMax.admits, decide_eq_true_eq] at h ⊢
    have hne : k ≠ n := fun hk => hroom (by rw [hk])
    omega

theorem StackMax.admits_mono {m : StackMax} {n k : Nat} (h : m.admits n = true) (hk : k ≤ n) : m.admits k = true := by
  cases m with
  | infinity => rfl
  | atMost =>
    simp only [StackMax.admits, decide_eq_true_eq] at h ⊢
    omega

/-- The data invariant does not speak of `status`, `skip` and the input buffer. -/
theorem DataInv.congr {s t : State} (h : DataInv s) (hparams : t.params = s.params) (hregs : t.regs = s.regs)
    (hpc : t.pc = s.pc) (hstack : t.stack = s.stack) (hmem : t.mem = s.mem) (hout : t.out = s.out) : DataInv t where
  params := hparams ▸ h.params
  regs r := State.readReg_congr hregs r ▸ h.regs r
  pc := hpc ▸ h.pc
  stack := hstack ▸ h.stack
  depth := by rw [hparams, hstack]; exact h.depth
  mem := hmem ▸ h.mem
  out := hout ▸ h.out

/-- Register values below 32768 stay so: a register keeps its value or holds a reduced one. -/
theorem toNat_readReg_lt_of_exec {i : Instr} {s t : State} (h : ∀ r, (s.readReg r).toNat < 32768)
    (ht : exec i s = .next t) (r : Fin 8) : (t.readReg r).toNat < 32768 := by
  by_cases hr : t.readReg r = s.readReg r
  · rw [hr]
    exact h r
  · exact toNat_readReg_lt_of_changed ht hr

section

variable {s t : State} {i : Instr} (hinv : DataInv s) (h : Continues s i t)
include hinv h

theorem Continues.pc_le (hlen : s.pc.toNat + i.opcode.length ≤ 32768) : t.pc.toNat ≤ 32768 := by
  obtain ⟨-, hp⟩ | ⟨-, w, -, hw⟩ | ⟨-, w, -, hw⟩ | ⟨-, hhead⟩ := h.pc_cases
  · rw [hp, State.pcPlus_toNat s _ (by omega)]
    exact hlen
  · exact (valOf_lt hinv.regs hw).le
  · exact (valOf_lt hinv.regs hw).le
  · exact hinv.stack _ (List.mem_of_mem_head? hhead)

theorem Continues.stack_le (hlen : s.pc.toNat + i.opcode.length ≤ 32768) : ∀ v ∈ t.stack, v.toNat ≤ 32768 := by
  obtain hst | ⟨v, hst, -, hv⟩ | ⟨v, hst⟩ := h.stack_cases
  · rw [hst]
    exact hinv.stack
  · have hle : v.toNat ≤ 32768 := by
      obtain rfl | ⟨w, hw⟩ := hv
      · rw [State.pcPlus_toNat s _ (by omega)]
        exact hlen
      · exact (valOf_lt hinv.regs hw).le
    rw [hst]
    exact List.forall_mem_cons.mpr ⟨hle, hinv.stack⟩
  · exact fun x hx => hinv.stack x (hst ▸ List.mem_cons_of_mem v hx)

theorem Continues.depth_admits : t.params.stackMax.admits t.stack.length = true := by
  rw [h.params_eq]
  obtain hst | ⟨v, hst, hroom, -⟩ | ⟨v, hst⟩ := h.stack_cases
  · rw [hst]
    exact hinv.depth
  · rw [hst]
    exact StackMax.admits_succ hinv.depth hroom
  · exact StackMax.admits_mono hinv.depth (by rw [hst]; exact Nat.le_succ _)

theorem Continues.mem_wf : Memory.wf t.mem = true := by
  obtain hmem | ⟨_, _, addr, v, -, -, -, hlow, hmem⟩ := h.mem_cases
  · rw [hmem]
    exact hinv.mem
  · rw [hmem]
    exact Memory.wf_write _ _ v hinv.mem hlow

theorem Continues.out_lt : ∀ e ∈ t.out, e.code.toNat < 32768 := by
  obtain ⟨hout, -⟩ | ⟨-, w, c, hc, hout⟩ | ⟨hout, -⟩ := h.io_cases
  · rw [hout]
    exact hinv.out
  · rw [hout]
    exact List.forall_mem_append.mpr ⟨hinv.out, List.forall_mem_singleton.mpr (valOf_lt hinv.regs hc)⟩
  · rw [hout]
    exact hinv.out

end

/-- Settles O42: a fault, a halt and a suspension write nothing the invariant speaks of; for an instruction that goes
on, the invariant is kept field by field. -/
theorem stepKeepsDataInv : Obligations.StepKeepsDataInv := by
  intro s t hinv ht
  by_cases hs : s.status = .running
  · obtain ⟨_, _, rfl⟩ | ⟨_, _, _, -, -, rfl⟩ | ⟨_, _, -, -, -, rfl⟩ | ⟨-, i, rest, hdecode, h⟩ := step_next_cases hs ht
    iterate 3 exact hinv.congr rfl rfl rfl rfl rfl rfl
    have hlen := pc_add_length_le hdecode
    exact {
      params := h.params_eq ▸ hinv.params
      regs := toNat_readReg_lt_of_exec hinv.regs ((step_of_decode_ok hs hdecode).symm.trans ht)
      pc := h.pc_le hinv hlen
      stack := h.stack_le hinv hlen
      depth := h.depth_admits hinv
      mem := h.mem_wf hinv
      out := h.out_lt hinv }
  · cases (step_of_not_running hs).symm.trans ht
    exact hinv

/-! ### The control invariant -/

/-- A running engine may be in any state. -/
theorem controlInv_of_running {s : State} (h : s.status = .running) : ControlInv s where
  ready hs := by cases h.symm.trans hs
  awaiting hs := by cases h.symm.trans hs
  haltedByHalt hs := by cases h.symm.trans hs
  haltedByRet hs := by cases h.symm.trans hs
  faulted _ hs := by cases h.symm.trans hs

theorem controlInv_raise (s : State) (cause : FaultCause) (op : Option Word) : ControlInv (s.raise cause op) where
  ready := nofun
  awaiting := nofun
  haltedByHalt := nofun
  haltedByRet := nofun
  faulted _ h := by cases h; rfl

/-- An engine halts on the instruction at `pc`, which is still there. -/
theorem Halts.controlInv {s : State} {i : Instr} {r : HaltReason} {rest : List Word} (h : Halts s i r)
    (hdecode : decode s.params.opcodes s.window = .ok (i, rest)) : ControlInv (s.halt r) := by
  cases h with
  | halt => exact ⟨nofun, nofun, fun _ => ⟨rest, hdecode⟩, nofun, nofun⟩
  | ret hst => exact ⟨nofun, nofun, nofun, fun _ => ⟨hst, rest, hdecode⟩, nofun⟩

theorem controlInv_suspend {s : State} {a : Word} {rest : List Word}
    (hdecode : decode s.params.opcodes s.window = .ok (.inp a, rest)) (hd : destOf a ≠ none) :
    ControlInv s.suspend :=
  ⟨nofun, fun _ => ⟨rfl, a, rest, hdecode, hd⟩, nofun, nofun, nofun⟩

/-- Settles O43: each of the ends of a run establishes what its status says, and a running engine is free. -/
theorem stepKeepsControlInv : Obligations.StepKeepsControlInv := by
  intro s t hinv ht
  by_cases hs : s.status = .running
  · obtain ⟨cause, op, rfl⟩ | ⟨_, _, _, hdecode, h, rfl⟩ | ⟨_, _, hdecode, hd, -, rfl⟩ | ⟨hrunning, -⟩ :=
      step_next_cases hs ht
    · exact controlInv_raise s cause op
    · exact h.controlInv hdecode
    · exact controlInv_suspend hdecode hd
    · exact controlInv_of_running hrunning
  · cases (step_of_not_running hs).symm.trans ht
    exact hinv

/-! ### Host actions, reset, and the states reached -/

/-- The control invariant does not speak of the input buffer. -/
theorem ControlInv.append {s : State} (h : ControlInv s) (l : List Word) : ControlInv { s with inbuf := l } :=
  ⟨h.ready, h.awaiting, h.haltedByHalt, h.haltedByRet, h.faulted⟩

/-- Settles O44: a host action sets `status` to `running`, sets `skip` of a running engine, or appends input. -/
theorem hostActionsKeepInvariants : Obligations.HostActionsKeepInvariants := by
  intro s a
  obtain h | ⟨-, h⟩ | ⟨-, h⟩ | ⟨codes, h⟩ | ⟨hs, h⟩ := hostAct_cases a s <;> rw [h]
  · exact ⟨id, id⟩
  · exact ⟨fun hinv => hinv.congr rfl rfl rfl rfl rfl rfl, fun _ => controlInv_of_running rfl⟩
  · exact ⟨fun hinv => hinv.congr rfl rfl rfl rfl rfl rfl, fun _ => controlInv_of_running rfl⟩
  · exact ⟨fun hinv => hinv.congr rfl rfl rfl rfl rfl rfl, fun hinv => hinv.append _⟩
  · exact ⟨fun hinv => hinv.congr rfl rfl rfl rfl rfl rfl, fun _ => controlInv_of_running hs⟩

theorem hostAct_params (a : HostAction) (s : State) : (hostAct a s).1.params = s.params := by
  obtain h | ⟨-, h⟩ | ⟨-, h⟩ | ⟨codes, h⟩ | ⟨-, h⟩ := hostAct_cases a s <;> rw [h]
  exact s.setSkip_params

theorem hostAct_mem (a : HostAction) (s : State) : (hostAct a s).1.mem = s.mem := by
  obtain h | ⟨-, h⟩ | ⟨-, h⟩ | ⟨codes, h⟩ | ⟨-, h⟩ := hostAct_cases a s <;> rw [h]
  exact s.setSkip_mem

theorem step_params {s t : State} (ht : step s = .next t) : t.params = s.params := by
  by_cases hs : s.status = .running
  · obtain ⟨_, _, rfl⟩ | ⟨_, _, _, -, -, rfl⟩ | ⟨_, _, -, -, -, rfl⟩ | ⟨-, _, _, -, h⟩ := step_next_cases hs ht
    iterate 3 rfl
    exact h.params_eq
  · cases (step_of_not_running hs).symm.trans ht
    rfl

theorem readReg_reset (r : Fin 8) : State.reset.readReg r = 0 := by
  revert r
  decide

theorem bootImage_eq_some {p : Params} {image : List Byte} {s : State} (h : bootImage p image = some s) :
    ∃ m, loadImage image = some m ∧ s = { State.reset with params := p, mem := m } := by
  unfold bootImage at h
  split at h
  · next m hm => exact ⟨m, hm, (Option.some.inj h).symm⟩
  · cases h

theorem bootImage_of_load {image : List Byte} {m : Memory} (h : loadImage image = some m) (p : Params) :
    bootImage p image = some { State.reset with params := p, mem := m } := by
  simp [bootImage, h]

theorem dataInv_boot {p : Params} {m : Memory} (hp : p.Valid) (hm : Memory.wf m = true) :
    DataInv { State.reset with params := p, mem := m } where
  params := hp
  regs r := (readReg_reset r).symm ▸ Nat.zero_lt_succ _
  pc := Nat.zero_le _
  stack := nofun
  depth := by cases hmax : p.stackMax <;> simp [StackMax.admits, State.reset]
  mem := hm
  out := nofun

theorem controlInv_boot (p : Params) (m : Memory) : ControlInv { State.reset with params := p, mem := m } where
  ready _ := ⟨rfl, readReg_reset, rfl, rfl, rfl⟩
  awaiting := nofun
  haltedByHalt := nofun
  haltedByRet := nofun
  faulted := nofun

/-- Settles O45: reset is the boot with the empty image. -/
theorem resetMeetsInvariants : Obligations.ResetMeetsInvariants :=
  ⟨dataInv_boot (by decide) rfl, controlInv_boot _ _⟩

/-- Settles O53: a boot is the load, and the rest of the state is that of reset. -/
theorem resetGivesEveryValue : Obligations.ResetGivesEveryValue := by
  refine fun p image => ⟨?_, fun m hm => ⟨_, bootImage_of_load hm p, rfl⟩, fun s hs => ?_⟩
  · cases hm : loadImage image with
    | none => simp [bootImage, hm]
    | some m => simp [bootImage_of_load hm p]
  · obtain ⟨m, hm, rfl⟩ := bootImage_eq_some hs
    exact ⟨readReg_reset, rfl, hm, rfl, rfl, rfl, rfl, rfl, rfl, rfl⟩

/-- The invariants and the parameters of every reachable state, by induction over the run. -/
theorem Reachable.sound {p : Params} {s : State} (hp : p.Valid) (h : Reachable p s) :
    DataInv s ∧ ControlInv s ∧ s.params = p := by
  induction h with
  | boot image s hs =>
    obtain ⟨m, hm, rfl⟩ := bootImage_eq_some hs
    exact ⟨dataInv_boot hp (wf_loadImage image m hm), controlInv_boot p m, rfl⟩
  | step s t _ ht ih =>
    obtain ⟨hdata, hcontrol, hparams⟩ := ih
    exact ⟨stepKeepsDataInv s t hdata ht, stepKeepsControlInv s t hcontrol ht, (step_params ht).trans hparams⟩
  | host a s _ ih =>
    obtain ⟨hdata, hcontrol, hparams⟩ := ih
    obtain ⟨hkeepsData, hkeepsControl⟩ := hostActionsKeepInvariants s a
    exact ⟨hkeepsData hdata, hkeepsControl hcontrol, (hostAct_params a s).trans hparams⟩

/-- Settles O47. -/
theorem reachableStatesAreSound : Obligations.ReachableStatesAreSound := by
  intro p s hp h
  obtain ⟨hdata, hcontrol, hparams⟩ := h.sound hp
  exact ⟨hdata, hcontrol, hparams, stepAlwaysAnswersNext s hdata⟩

/-! ### Stores and words from 32768 on -/

theorem fetch_congr {m m' : Memory} {x : Nat} (h : Memory.read m' x = Memory.read m x) : fetch m' x = fetch m x := by
  rw [fetch, h, fetch]

/-- Settles O50: the step is the WMEM that memory held, and the store is in the memory that the next fetch reads. -/
theorem storeIsSeenByNextFetch : Obligations.StoreIsSeenByNextFetch := by
  intro s a b addr v rest hinv hs hdecode ha hv
  have haddr : addr.toNat < 32768 := valOf_lt hinv.regs ha
  have hread := Memory.read_write_same v hinv.mem haddr
  refine ⟨_, (step_of_decode_ok hs hdecode).trans (exec_wmem ha hv haddr), fetch_eq_some_iff.mpr ⟨haddr, hread⟩,
    fun x hx => fetch_congr (Memory.read_write_other v hinv.mem haddr hx), fun hpc => ?_⟩
  rw [State.window_cons _ (hpc ▸ haddr), hpc]
  exact congrArg some hread

/-- A word from 32768 on after a step was there before: what a WMEM stores is a resolved value. -/
theorem read_eq_of_high {s t : State} (hinv : DataInv s) (ht : step s = .next t) {x : Nat}
    (hhigh : 32768 ≤ (Memory.read t.mem x).toNat) : Memory.read t.mem x = Memory.read s.mem x := by
  obtain ⟨-, h⟩ | ⟨-, e, -, h⟩ | ⟨-, i, rest, -, h⟩ := step_cases s
  · cases h.symm.trans ht
    rfl
  · obtain ⟨cause, op, he⟩ := raiseDecode_eq s e
    cases h.symm.trans ht
    rw [he, State.raise_mem]
  · obtain hmem | ⟨_, _, addr, v, -, -, hv, hlow, hmem⟩ := exec_mem_cases (h.symm.trans ht)
    · rw [hmem]
    · rw [hmem] at hhigh ⊢
      by_cases hx : x = addr.toNat
      · rw [hx, Memory.read_write_same v hinv.mem hlow] at hhigh
        exact absurd (valOf_lt hinv.regs hv) (Nat.not_lt.mpr hhigh)
      · exact Memory.read_write_other v hinv.mem hlow hx

/-- A word from 32768 on is a register reference, or does not resolve (R64). -/
theorem valOf_of_high (s : State) {w : Word} (hhigh : 32768 ≤ w.toNat) :
    (∃ r : Fin 8, w.toNat = 32768 + r.val ∧ valOf s w = some (s.readReg r)) ∨ (32776 ≤ w.toNat ∧ valOf s w = none) := by
  obtain ⟨-, hregister, hinvalid, -⟩ := valResolvesOperands s w
  by_cases hw : w.toNat < 32776
  · have hr : w.toNat = 32768 + (⟨w.toNat - 32768, by omega⟩ : Fin 8).val := by simp; omega
    exact .inl ⟨_, hr, hregister _ hr⟩
  · exact .inr ⟨by omega, hinvalid (by omega)⟩

/-- Settles O51. -/
theorem highWordsComeFromTheImage : Obligations.HighWordsComeFromTheImage := by
  refine ⟨fun s t hinv ht x _ => read_eq_of_high hinv ht, hostAct_mem, fun s x hx hhigh =>
    ⟨fun hs hpc => ?_, valOf_of_high s hhigh, fun a b d addr hd haddr hax => ?_⟩⟩
  · subst hpc
    exact step_of_unknown hs hx (OpcodeMap.find_high _ hhigh)
  · subst hax
    exact writes_of_exec (exec_rmem hd haddr hx) rfl

end Sys2Proof.Machine

/-! SUPPORT. Suspension and host calls: R71, R98, R102, R112, R118. -/

namespace Sys2Proof.Machine

/-! ### Suspension -/

theorem step_awaiting_cases {s t : State} (hs : s.status = .running) (ht : step s = .next t)
    (hawaiting : t.status = .awaitingInput) :
    ∃ a d rest, decode s.params.opcodes s.window = .ok (.inp a, rest) ∧ destOf a = some d ∧ s.inbuf = [] ∧
      t = s.suspend := by
  obtain ⟨_, _, rfl⟩ | ⟨_, _, _, -, -, rfl⟩ | ⟨a, rest, hdecode, hd, hin, rfl⟩ | ⟨hrunning, -⟩ := step_next_cases hs ht
  · cases hawaiting
  · cases hawaiting
  · obtain ⟨d, hd⟩ := Option.ne_none_iff_exists'.mp hd
    exact ⟨a, d, rest, hdecode, hd, hin, rfl⟩
  · cases hrunning.symm.trans hawaiting

/-- An append and a resume after a suspension undo it, but for the codes appended and `skip`. -/
theorem resume_append_suspend {s : State} (hs : s.status = .running) (hin : s.inbuf = []) (codes : List Word) :
    (hostAct .resume (hostAct (.append codes) s.suspend).1).1 = { s with inbuf := codes, skip := false } := by
  rw [hostResume_awaiting rfl]
  simp [hostAct, hostAppend, State.suspend, hs, hin]

/-- What is decoded leaves the words after the instruction. -/
theorem rest_eq_drop_length {m : OpcodeMap} {ws rest : List Word} {i : Instr} (h : decode m ws = .ok (i, rest)) :
    rest = ws.drop i.opcode.length := by
  have hlen : (encode m i).length = i.opcode.length := by
    simp [encode, i.length_operands, Opcode.length, Nat.add_comm]
  rw [← encode_append_of_decode h, List.drop_left' hlen]

/-- Settles O55: the state after the resume differs from the one before the suspension in input and `skip` alone, so it
decodes the same IN, which now has a code. -/
theorem suspensionIsExact : Obligations.SuspensionIsExact := by
  intro s t k codes hs ht hawaiting
  obtain ⟨a, d, rest, hdecode, hd, hin, rfl⟩ := step_awaiting_cases hs ht hawaiting
  have hresume := resume_append_suspend hs hin (k :: codes)
  have hrest : rest = s.window.drop 2 := rest_eq_drop_length hdecode
  have hpc : s.pc.toNat + 2 ≤ 32768 := pc_add_length_le hdecode
  have hstep := step_of_decode_ok (s := { s with inbuf := k :: codes, skip := false }) hs hdecode
  rw [hresume]
  refine ⟨rfl, a, d, _, hd, hrest ▸ hdecode, hstep.trans (exec_inp_cons hd rfl), toNat_readReg_write _ d _ 2, rfl, hs,
    toNat_pc_advance _ 2 (by simp; omega) (by omega), ?_⟩
  have hinput := (frame_inbuf s codes).trans (frame_skip { s with inbuf := codes } false)
  exact (hinput.trans (frame_writeReg_advance _ d k.toNat 2)).mono (by simp)

/-- Settles O56: the IN that the control invariant names suspends again, and the status and `skip` it sets are those
there were. -/
theorem resumeWithoutInputSuspendsAgain : Obligations.ResumeWithoutInputSuspendsAgain := by
  intro s hinv hs hin
  obtain ⟨hskip, a, rest, hdecode, hne⟩ := hinv.awaiting hs
  obtain ⟨d, hd⟩ := Option.ne_none_iff_exists'.mp hne
  have hback : State.suspend { s with status := .running } = s := by
    rw [State.suspend, ← hs, ← hskip]
  have hstep := step_of_decode_ok (s := { s with status := .running }) rfl hdecode
  rw [hostResume_awaiting hs, hstep, exec_inp_nil (s := { s with status := .running }) hd hin, hback]

/-! ### Host calls -/

theorem coreRun_succ_of_next {M : Host.Core} {s t : M.State} (h : M.step s = .next t) (n : Nat) :
    M.run (n + 1) s = M.run n t := by
  simp [Host.Core.run, h]

theorem run_succ_of_next {s t : State} (h : step s = .next t) (n : Nat) :
    Sys2Proof.core.run (n + 1) s = Sys2Proof.core.run n t :=
  coreRun_succ_of_next (M := Sys2Proof.core) h n

/-- A run of one step or more that answers a next state has a first step that does. -/
theorem coreRun_succ_next {M : Host.Core} {s u : M.State} {n : Nat} (h : M.run (n + 1) s = .next u) :
    ∃ t, M.step s = .next t ∧ M.run n t = .next u := by
  cases hstep : M.step s with
  | next t => exact ⟨t, rfl, (coreRun_succ_of_next hstep n).symm.trans h⟩
  | fault | refused => simp [Host.Core.run, hstep] at h

theorem run_succ_next {s u : State} {n : Nat} (h : Sys2Proof.core.run (n + 1) s = .next u) :
    ∃ t, step s = .next t ∧ Sys2Proof.core.run n t = .next u :=
  coreRun_succ_next (M := Sys2Proof.core) h

/-- Idle steps change nothing (log 5). -/
theorem run_of_not_running {s : State} (h : s.status ≠ .running) (n : Nat) : Sys2Proof.core.run n s = .next s := by
  induction n with
  | zero => rfl
  | succ n ih => rw [run_succ_of_next (step_of_not_running h), ih]

/-- Two runs that have ended have ended in the same state, whatever idle steps either counts. -/
theorem run_end_unique {s t u : State} {n k : Nat} (ht : Sys2Proof.core.run n s = .next t) (hte : t.status ≠ .running)
    (hu : Sys2Proof.core.run k s = .next u) (hue : u.status ≠ .running) : t = u := by
  induction n generalizing s k with
  | zero =>
    cases ht
    cases hu.symm.trans (run_of_not_running hte k)
    rfl
  | succ n ih =>
    cases k with
    | zero =>
      cases hu
      cases ht.symm.trans (run_of_not_running hue (n + 1))
      rfl
    | succ k =>
      obtain ⟨s', hstep, ht'⟩ := run_succ_next ht
      rw [run_succ_of_next hstep] at hu
      exact ih ht' hu

/-- The steps of a run, but for idle ones at its end, are steps of the call. -/
theorem CallGoesOn.of_run {s t u : State} {n : Nat} (h : CallGoesOn s t) (hrun : Sys2Proof.core.run n t = .next u) :
    CallGoesOn s u := by
  induction n generalizing t with
  | zero =>
    cases hrun
    exact h
  | succ n ih =>
    obtain ⟨t', hstep, hrun'⟩ := run_succ_next hrun
    by_cases ht : t.status = .running
    · exact ih (.step t t' h ht hstep) hrun'
    · cases hstep.symm.trans (step_of_not_running ht)
      exact ih h hrun'

/-- Nothing that runs or the host does during a call leads back to `Ready`. -/
theorem CallGoesOn.status_ne_ready {s t : State} (hs : s.status = .running) (h : CallGoesOn s t) :
    t.status ≠ .ready := by
  induction h with
  | begin => simp [hs]
  | step t u _ ht hstep _ =>
    obtain ⟨_, _, rfl⟩ | ⟨_, _, _, -, -, rfl⟩ | ⟨_, _, -, -, -, rfl⟩ | ⟨hu, -⟩ := step_next_cases ht hstep
    iterate 3 exact nofun
    simp [hu]
  | host a t _ ht _ =>
    obtain hact | ⟨-, hact⟩ | ⟨-, hact⟩ | ⟨_, hact⟩ | ⟨-, hact⟩ := hostAct_cases a t <;> simp [hact, ht]

theorem status_cases_of_ne_ready {x : Status} (h : x ≠ .ready) :
    x = .running ∨ (∃ r, x = .halted r) ∨ x = .awaitingInput ∨ ∃ info, x = .faulted info := by
  cases x with
  | ready => exact absurd rfl h
  | running => exact .inl rfl
  | halted r => exact .inr (.inl ⟨r, rfl⟩)
  | awaitingInput => exact .inr (.inr (.inl rfl))
  | faulted info => exact .inr (.inr (.inr ⟨info, rfl⟩))

/-- Settles O59. -/
theorem hostCallHasOneResult : Obligations.HostCallHasOneResult := by
  refine ⟨fun s t u hs ⟨n, ht, hte⟩ ⟨k, hu, hue⟩ => ?_,
    fun s t hs h => status_cases_of_ne_ready (h.status_ne_ready hs)⟩
  have hcall : CallGoesOn s t := CallGoesOn.begin.of_run ht
  exact ⟨run_end_unique ht hte hu hue, hcall, (status_cases_of_ne_ready (hcall.status_ne_ready hs)).resolve_left hte⟩

end Sys2Proof.Machine

/-! SUPPORT. What no instruction depends on: a change of `skip`, the input buffer and the output that the instructions
using them do not see commutes with the step; and from it R22 and R108. -/

namespace Sys2Proof.Machine

/-- The state with its port fields changed: `skip`, the input buffer and the output events. -/
def State.mapPort (f : Bool → Bool) (g : List Word → List Word) (h : List OutEvent → List OutEvent)
    (s : State) : State :=
  { s with skip := f s.skip, inbuf := g s.inbuf, out := h s.out }

/-- The same change made to a next state. -/
def mapNext (F : State → State) : Result → Result
  | .next t => .next (F t)
  | .fault r => .fault r
  | .refused r => .refused r

/-- The change is one that the instructions that use the port do not see: an emitted event stays last, a suspension's
clear `skip` stays clear, and the oldest code stays oldest. -/
structure PortMap (f : Bool → Bool) (g : List Word → List Word) (h : List OutEvent → List OutEvent) : Prop where
  clear : f false = false
  oldest : ∀ c rest, g (c :: rest) = c :: g rest
  emitted : ∀ l c b, h (l ++ [⟨c, b⟩]) = h l ++ [⟨c, f b⟩]

section Commuting

variable {f : Bool → Bool} {g : List Word → List Word} {h : List OutEvent → List OutEvent}
variable {s : State} {o : Opcode} {p : Nat} {w a b c : Word}

theorem withVal_mapPort {k k' : Word → Result} (hk : ∀ v, k' v = mapNext (.mapPort f g h) (k v)) :
    withVal o p w (s.mapPort f g h) k' = mapNext (.mapPort f g h) (withVal o p w s k) := by
  have hval : valOf (s.mapPort f g h) w = valOf s w := valOf_congr rfl w
  cases hv : valOf s w with
  | some v => rw [withVal_some hv, withVal_some (hval.trans hv), hk]
  | none =>
    rw [withVal_none hv, withVal_none (hval.trans hv)]
    rfl

theorem withDest_mapPort {k k' : Fin 8 → Result}
    (hk : ∀ d, destOf w = some d → k' d = mapNext (.mapPort f g h) (k d)) :
    withDest o p w (s.mapPort f g h) k' = mapNext (.mapPort f g h) (withDest o p w s k) := by
  cases hd : destOf w with
  | some d => rw [withDest_some hd, withDest_some hd, hk d hd]
  | none =>
    rw [withDest_none hd, withDest_none hd]
    rfl

theorem withDestVal_mapPort {k k' : Fin 8 → Word → Result} (hk : ∀ d v, k' d v = mapNext (.mapPort f g h) (k d v)) :
    withDestVal o a b (s.mapPort f g h) k' = mapNext (.mapPort f g h) (withDestVal o a b s k) :=
  withDest_mapPort fun d _ => withVal_mapPort fun v => hk d v

theorem withDestValVal_mapPort {k k' : Fin 8 → Word → Word → Result}
    (hk : ∀ d u v, k' d u v = mapNext (.mapPort f g h) (k d u v)) :
    withDestValVal o a b c (s.mapPort f g h) k' = mapNext (.mapPort f g h) (withDestValVal o a b c s k) :=
  withDest_mapPort fun d _ => withVal_mapPort fun u => withVal_mapPort fun v => hk d u v

theorem withValVal_mapPort {k k' : Word → Word → Result} (hk : ∀ u v, k' u v = mapNext (.mapPort f g h) (k u v)) :
    withValVal o a b (s.mapPort f g h) k' = mapNext (.mapPort f g h) (withValVal o a b s k) :=
  withVal_mapPort fun u => withVal_mapPort fun v => hk u v

theorem withPush_mapPort {v : Word} {k : State → Result}
    (hk : ∀ t, k (.mapPort f g h t) = mapNext (.mapPort f g h) (k t)) :
    withPush o v (s.mapPort f g h) k = mapNext (.mapPort f g h) (withPush o v s k) := by
  by_cases hroom : s.params.stackMax = .atMost s.stack.length
  · rw [withPush_full hroom, withPush_full (s := s.mapPort f g h) hroom]
    rfl
  · rw [withPush_room hroom, withPush_room (s := s.mapPort f g h) hroom, ← hk]
    rfl

theorem withPop_mapPort {e e' : Result} {k : Word → State → Result} (he : e' = mapNext (.mapPort f g h) e)
    (hk : ∀ v t, k v (.mapPort f g h t) = mapNext (.mapPort f g h) (k v t)) :
    withPop (s.mapPort f g h) e' k = mapNext (.mapPort f g h) (withPop s e k) := by
  cases hst : s.stack with
  | nil => rw [withPop_nil hst, withPop_nil (s := s.mapPort f g h) hst, he]
  | cons v rest =>
    rw [withPop_cons hst, withPop_cons (s := s.mapPort f g h) hst, ← hk]
    rfl

theorem withLoad_mapPort {addr : Nat} {k k' : Word → Result} (hk : ∀ v, k' v = mapNext (.mapPort f g h) (k v)) :
    withLoad addr (s.mapPort f g h) k' = mapNext (.mapPort f g h) (withLoad addr s k) := by
  unfold withLoad
  split
  · exact hk _
  · rfl

theorem withStore_mapPort {addr : Nat} {v : Word} {k : State → Result}
    (hk : ∀ t, k (.mapPort f g h t) = mapNext (.mapPort f g h) (k t)) :
    withStore addr v (s.mapPort f g h) k = mapNext (.mapPort f g h) (withStore addr v s k) := by
  unfold withStore
  split
  · exact hk { s with mem := Memory.write s.mem addr v }
  · rfl

/-- With a code in the buffer, or an empty buffer that stays empty, an input read commutes. -/
theorem withInput_mapPort (hp : PortMap f g h) {e e' : Result} {k : Word → State → Result}
    (hempty : s.inbuf = [] → g [] = []) (he : e' = mapNext (.mapPort f g h) e)
    (hk : ∀ v t, k v (.mapPort f g h t) = mapNext (.mapPort f g h) (k v t)) :
    withInput (s.mapPort f g h) e' k = mapNext (.mapPort f g h) (withInput s e k) := by
  cases hin : s.inbuf with
  | nil =>
    have hin' : (s.mapPort f g h).inbuf = [] := (congrArg g hin).trans (hempty hin)
    rw [withInput_nil hin, withInput_nil hin', he]
  | cons c rest =>
    have hin' : (s.mapPort f g h).inbuf = c :: g rest := (congrArg g hin).trans (hp.oldest c rest)
    rw [withInput_cons hin, withInput_cons hin', ← hk]
    rfl

theorem suspend_mapPort (hp : PortMap f g h) : (s.mapPort f g h).suspend = s.suspend.mapPort f g h := by
  simp [State.suspend, State.mapPort, hp.clear]

theorem emit_mapPort (hp : PortMap f g h) : (s.mapPort f g h).emit c = (s.emit c).mapPort f g h := by
  simp [State.emit, State.mapPort, hp.emitted]

/-- An instruction that does not suspend does the same after the change; one that suspends, too, if the change keeps an
empty buffer empty. -/
theorem exec_mapPort (hp : PortMap f g h) (i : Instr) (s : State) (hsus : exec i s = .next s.suspend → g [] = []) :
    exec i (s.mapPort f g h) = mapNext (.mapPort f g h) (exec i s) := by
  cases i with
  | halt | nop => rfl
  | ret =>
    rw [exec_ret, exec_ret]
    exact withPop_mapPort rfl fun _ _ => rfl
  | jmp => exact withVal_mapPort fun _ => rfl
  | jt | jf => exact withValVal_mapPort fun _ _ => by split <;> rfl
  | push | call => exact withVal_mapPort fun _ => withPush_mapPort fun _ => rfl
  | out => exact withVal_mapPort fun _ => by rw [emit_mapPort hp]; rfl
  | wmem => exact withValVal_mapPort fun _ _ => withStore_mapPort fun _ => rfl
  | set | not => exact withDestVal_mapPort fun _ _ => rfl
  | eq | gt | add | mult | and | or => exact withDestValVal_mapPort fun _ _ _ => rfl
  | mod => exact withDestValVal_mapPort fun _ _ _ => by split <;> rfl
  | rmem => exact withDestVal_mapPort fun _ _ => withLoad_mapPort fun _ => rfl
  | pop => exact withDest_mapPort fun _ _ => withPop_mapPort rfl fun _ _ => rfl
  | inp =>
    exact withDest_mapPort fun d hd => withInput_mapPort hp (fun hin => hsus (exec_inp_nil hd hin))
      (congrArg _ (suspend_mapPort hp)) fun _ _ => rfl

/-- The same of a step. -/
theorem step_mapPort (hp : PortMap f g h) (s : State)
    (hsus : s.status = .running → step s = .next s.suspend → g [] = []) :
    step (s.mapPort f g h) = mapNext (.mapPort f g h) (step s) := by
  obtain ⟨hs, hstep⟩ | ⟨hs, e, hdecode, hstep⟩ | ⟨hs, i, rest, hdecode, hstep⟩ := step_cases s
  · rw [hstep, step_of_not_running (s := s.mapPort f g h) hs]
    rfl
  · rw [hstep, step_of_decode_error (s := s.mapPort f g h) hs hdecode]
    cases e <;> rfl
  · rw [step_of_decode_ok (s := s.mapPort f g h) hs hdecode, hstep]
    exact exec_mapPort hp i s fun hexec => hsus hs (hstep.trans hexec)

end Commuting

/-! ### The skip-delay flag -/

theorem portMap_eraseSkip : PortMap (fun _ => false) id (List.map fun e => ⟨e.code, false⟩) where
  clear := rfl
  oldest _ _ := rfl
  emitted _ _ _ := List.map_append

theorem step_eraseSkip (s : State) : step s.eraseSkip = mapNext State.eraseSkip (step s) :=
  step_mapPort portMap_eraseSkip s fun _ _ => rfl

/-- Settles O57: forgetting the flag commutes with the step, so states that agree but for it step to such states. -/
theorem skipFlagDoesNotInterfere : Obligations.SkipFlagDoesNotInterfere := by
  intro s s' t heq ht
  have hstep : mapNext State.eraseSkip (step s') = .next t.eraseSkip := by
    rw [← step_eraseSkip, ← heq, step_eraseSkip, ht]
    rfl
  cases ht' : step s' with
  | next t' =>
    rw [ht'] at hstep
    exact ⟨t', rfl, (Host.Outcome.next.inj hstep).symm⟩
  | fault | refused =>
    rw [ht'] at hstep
    cases hstep

/-! ### Appended input -/

theorem portMap_append (codes : List Word) : PortMap id (· ++ codes) id where
  clear := rfl
  oldest _ _ := rfl
  emitted _ _ _ := rfl

/-- Settles O58: an append is such a change, but for an empty buffer, on which a step may suspend. -/
theorem appendedInputWaitsItsTurn : Obligations.AppendedInputWaitsItsTurn := by
  intro s t codes hs ht hne
  have hsus : s.status = .running → step s = .next s.suspend → [] ++ codes = [] := fun _ hsuspend => by
    cases ht.symm.trans hsuspend
    exact absurd rfl hne
  exact (step_mapPort (portMap_append codes) s hsus).trans (congrArg (mapNext _) ht)

end Sys2Proof.Machine
